-- ==== Sys2Proof/Word.lean ====
section
/-! DEFINITION. The widths of the block's fields as bit-vector types (00_scope.md R6, R8): bit 0 is the least
significant bit, and a field is an unsigned integer of its width. -/

namespace Sys2Proof

/-- An 8-bit field: a checksum or a byte of the payload (`CK_WIDTH`, R6). -/
abbrev Byte := BitVec 8

/-- A 16-bit field: frame number, timestamp, drop count, a payload half (`FN_WIDTH`, `TS_WIDTH`, `DROP_WIDTH`, R6). -/
abbrev Half := BitVec 16

/-- The identifier port at `ID_WIDTH` = 16 (R6, R60, decision D4). -/
abbrev Ident := BitVec 16

/-- The packed payload (`PL_WIDTH`, R6; "one 32-bit unsigned value", 20_memory.md R47). -/
abbrev PayloadWord := BitVec 32

/-- An IEEE 754 binary32 bit pattern (30_encoding.md R67). -/
abbrev FloatBits := BitVec 32

end Sys2Proof
end

