-- ==== Sys2Proof/Config.lean ====
section
/-! DEFINITION. What is fixed for the block: the categories, and the shape of the per-category configuration table
(00_scope.md R6, R11; 10_state.md R26). The table's values and the other hardwired constants stand in
Sys2Proof/Machine/Constants.lean. The spec leaves no value open, so there is no uninterpreted constant. -/

namespace Sys2Proof

/-- The category of a frame: "enum{Position, Velocity, Unknown}" (00_scope.md R11, R12). -/
inductive Category where
  | unk
  | pos
  | vel
deriving DecidableEq, Repr

/-- The `N_CAT` = 2 recognised categories, `c` in `{POS, VEL}` (R6, R11): those that own trackers. -/
inductive Recognised where
  | pos
  | vel
deriving DecidableEq, Repr

/-- A recognised category as a category. -/
def Recognised.category : Recognised → Category
  | .pos => .pos
  | .vel => .vel

/-- One entry of the "category-parameterized configuration table `{periodicity, margin}`", each field "held as a
16-bit unsigned value" (10_state.md R26, decision D27). -/
structure WindowConfig where
  period : Half
  margin : Half
deriving DecidableEq, Repr

end Sys2Proof
end

