-- ==== Sys2Proof/Machine/Constants.lean ====
section
/-! DEFINITION. The hardwired constants (10_state.md R26, R27). None of them is writable and no operation changes them:
they are no part of State. -/

namespace Sys2Proof.Machine

/-- `ID_POS` (R27; "15→Position", decimal by decision D7). -/
def idPos : Nat := 15

/-- `ID_VEL` (R27; "78→Velocity", decimal by decision D7). -/
def idVel : Nat := 78

/-- `PERIOD` and `MARGIN` of each category (R26). -/
def windowTable : Recognised → WindowConfig
  | .pos => ⟨25, 2⟩
  | .vel => ⟨50, 3⟩

/-- `LO[c] = PERIOD[c] - MARGIN[c]` (R11, R26). -/
def lo (c : Recognised) : Half := (windowTable c).period - (windowTable c).margin

/-- `HI[c] = PERIOD[c] + MARGIN[c]` (R11, R26). -/
def hi (c : Recognised) : Half := (windowTable c).period + (windowTable c).margin

/-- `DEC_OFFSET` (R27; "minus 32767"). -/
def decOffset : Int := 32767

/-- `POS_X_DIV` (R27; "divided by 100.0"). -/
def posXDiv : Nat := 100

/-- `POS_Y_DIV` (R27; "divided by 1000.0"). -/
def posYDiv : Nat := 1000

/-- `VEL_DIV` (R27; "divided by 1000.0"). -/
def velDiv : Nat := 1000

/-- `DIAG_UNKNOWN_ID` (R27; 60_exceptions.md R151, decision D14). -/
def diagUnknownId : Byte := 0x01

/-- The identifier of each recognised category, on the identifier port. -/
def identOf : Recognised → Ident
  | .pos => BitVec.ofNat 16 idPos
  | .vel => BitVec.ofNat 16 idVel

/-- The category code `cat[1:0]` of the record port (30_encoding.md R63, decision D8). Code `11` is never produced. -/
def catCode : Category → BitVec 2
  | .unk => 0b00
  | .pos => 0b01
  | .vel => 0b10

end Sys2Proof.Machine
end

