-- ==== Sys2Proof/Syntax.lean ====
section
/-! DEFINITION. The operations of the block (one constructor per row of spec/opcode_table.json), and what the host
presents on the operation port (20_memory.md R41; 30_encoding.md R60, R71). -/

namespace Sys2Proof

/-- The block's operations (00_scope.md R2; 45_frame_processor.md R130). `procPos` and `procVel` carry no identifier:
their row of the opcode table fixes it. `skipUnknown` carries the whole frame word, of which it reads only the
identifier (R133). -/
inductive Instr where
  | procPos (fn ts : Half) (payload : PayloadWord) (ck : Byte)
  | procVel (fn ts : Half) (payload : PayloadWord) (ck : Byte)
  | skipUnknown (id : Ident) (fn ts : Half) (payload : PayloadWord) (ck : Byte)
  | reset
  | idle
deriving DecidableEq, Repr

/-- One frame: the five input fields of the operation port (R41), in the source's field order (R60). -/
structure Frame where
  id : Ident
  fn : Half
  ts : Half
  payload : PayloadWord
  ck : Byte
deriving DecidableEq, Repr

/-- What the host drives on the operation port in one step (R41). -/
structure OpPort where
  rst : Bool
  opValid : Bool
  frame : Frame
deriving DecidableEq, Repr

/-- One line of the spec's notation for operation streams (R71, decision D25). -/
inductive AsmLine where
  | reset
  | idle
  | frame (id fn ts payload ck : Nat)
deriving DecidableEq, Repr

end Sys2Proof
end

