-- ==== Sys2Proof/WellFormed.lean ====
section
/-! DEFINITION. Which instruction terms stand for an operation of the block. Every operand value is accepted
(30_encoding.md R69). The one check: `skipUnknown` is selected only by an identifier "neither 15 nor 78"
(45_frame_processor.md R133). -/

namespace Sys2Proof

/-- The well-formedness check. -/
def Instr.wellFormed : Instr → Bool
  | .procPos _ _ _ _ => true
  | .procVel _ _ _ _ => true
  | .skipUnknown id _ _ _ _ => id.toNat != Machine.idPos && id.toNat != Machine.idVel
  | .reset => true
  | .idle => true

/-- The term stands for an operation of the block. -/
abbrev Instr.WellFormed (i : Instr) : Prop := i.wellFormed = true

end Sys2Proof
end

