-- ==== Sys2Proof/Decode.lean ====
section
/-! DEFINITION. The category decode, the operation map, and the words of frames and operations (30_encoding.md); then
the encoder and the assembler of the spec's notation. Decoding the operation port is total and refuses nothing: "No
frame word is illegal or reserved" (R69). Only the table-word form, whose length is the reader's, can be refused. -/

namespace Sys2Proof

/-! ## Category decode and operation map -/

/-- `category(id)` (R62): "The comparison is on the identifier's integer value, over all `ID_WIDTH` bits", for an
identifier port of any width (R61). -/
def categoryOf {w : Nat} (id : BitVec w) : Category :=
  if id.toNat = Machine.idPos then .pos
  else if id.toNat = Machine.idVel then .vel
  else .unk

/-- The frame operation that a frame selects, by its identifier alone (R64). -/
def decodeFrame (f : Frame) : Instr :=
  match categoryOf f.id with
  | .pos => .procPos f.fn f.ts f.payload f.ck
  | .vel => .procVel f.fn f.ts f.payload f.ck
  | .unk => .skipUnknown f.id f.fn f.ts f.payload f.ck

/-- The operation of a step, selected in the order of R64: RESET first (R137), then IDLE, then the frame operation. -/
def decode (p : OpPort) : Instr :=
  if p.rst then .reset
  else if p.opValid then decodeFrame p.frame
  else .idle

/-! ## Words -/

/-- The frame word for an identifier port of width `w` (R61): `w + 72` bits, the identifier at `[w+71:72]`. -/
def frameWord {w : Nat} (id : BitVec w) (fn ts : Half) (payload : PayloadWord) (ck : Byte) : BitVec (w + 72) :=
  id ++ fn ++ ts ++ payload ++ ck

/-- `FW88 = { id[15:0], fn[15:0], ts[15:0], p[31:0], ck[7:0] }` (R60, decision D15). -/
def Frame.word (f : Frame) : BitVec 88 := frameWord f.id f.fn f.ts f.payload f.ck

/-- The fields of a frame word, at the bits R60 gives them. -/
def Frame.ofWord (w : BitVec 88) : Frame where
  id := w.extractLsb' 72 16
  fn := w.extractLsb' 56 16
  ts := w.extractLsb' 40 16
  payload := w.extractLsb' 8 32
  ck := w.extractLsb' 0 8

/-- Whoever reads the operation from one word, with the two control inputs above the frame word:
`{ rst, op_valid, FW88 }`. DESIGN CHOICE (log 3): the spec packs the frame fields only (R60), and R41 lists the
control inputs first. -/
def OpPort.word (p : OpPort) : BitVec 90 := BitVec.ofBool p.rst ++ BitVec.ofBool p.opValid ++ p.frame.word

/-- The operation port that a 90-bit word drives. -/
def OpPort.ofWord (w : BitVec 90) : OpPort where
  rst := w.getLsbD 89
  opValid := w.getLsbD 88
  frame := Frame.ofWord (w.setWidth 88)

/-- The frame a host presents with `rst = 0` and `op_valid = 1` (R41, R64). -/
def OpPort.ofFrame (f : Frame) : OpPort := ⟨false, true, f⟩

/-- The operation port when the host presents nothing: `rst = 0` and `op_valid = 0` (R41). The frame fields are not
read. -/
def OpPort.nothing : OpPort := ⟨false, false, ⟨0, 0, 0, 0, 0⟩⟩

/-- The operation port with `rst = 1`. The other inputs are not read (R134). -/
def OpPort.resetOp : OpPort := ⟨true, false, ⟨0, 0, 0, 0, 0⟩⟩

/-- Why a table word is refused. -/
inductive DecodeError where
  /-- The word has a bit at a place where the operation port has no wire (above bit 89). -/
  | noSuchPortBit
deriving DecidableEq, Repr

/-- The operation port that a word of `nbits` table bits drives (log 3). No bits: no frame word is presented, IDLE
(30_encoding.md R71: RESET and IDLE have no frame word). Up to 88 bits: a frame word, with the frame operation's
control inputs. More: the 90-bit port word. The bits from `nbits` on are 0. -/
def OpPort.ofTableWord (nbits w : Nat) : Except DecodeError OpPort :=
  if nbits = 0 then .ok .nothing
  else if nbits ≤ 88 then .ok (.ofFrame (Frame.ofWord (BitVec.ofNat 88 (w % 2 ^ nbits))))
  else if w % 2 ^ nbits < 2 ^ 90 then .ok (.ofWord (BitVec.ofNat 90 (w % 2 ^ nbits)))
  else .error .noSuchPortBit

/-- What the decoder reads from a table word of `nbits` bits, bit 0 the least significant. -/
def decodeTableWord (nbits w : Nat) : Option Instr :=
  match OpPort.ofTableWord nbits w with
  | .ok p => some (decode p)
  | .error _ => none

/-! ## Encoder and assembler -/

/-- The frame that encodes a frame operation (R60, R64); RESET and IDLE "have no frame word" (R71). -/
def encodeFrame : Instr → Option Frame
  | .procPos fn ts payload ck => some ⟨Machine.identOf .pos, fn, ts, payload, ck⟩
  | .procVel fn ts payload ck => some ⟨Machine.identOf .vel, fn, ts, payload, ck⟩
  | .skipUnknown id fn ts payload ck => some ⟨id, fn, ts, payload, ck⟩
  | .reset => none
  | .idle => none

/-- The operation-port inputs that present an operation (R64). The inputs an operation does not read are 0. -/
def encode : Instr → OpPort
  | .procPos fn ts payload ck => .ofFrame ⟨Machine.identOf .pos, fn, ts, payload, ck⟩
  | .procVel fn ts payload ck => .ofFrame ⟨Machine.identOf .vel, fn, ts, payload, ck⟩
  | .skipUnknown id fn ts payload ck => .ofFrame ⟨id, fn, ts, payload, ck⟩
  | .reset => .resetOp
  | .idle => .nothing

/-- What a line of the spec's notation presents (R71): "`FRAME` assembles to `FW88` by rule R60", "`RESET` and `IDLE`
have no frame word: they are the control-input values of rule R64". A number too wide for its field is taken modulo the
field's width: DESIGN CHOICE (log 3), the spec writes no such line. -/
def AsmLine.assemble : AsmLine → OpPort
  | .reset => .resetOp
  | .idle => .nothing
  | .frame id fn ts payload ck =>
    .ofFrame ⟨BitVec.ofNat 16 id, BitVec.ofNat 16 fn, BitVec.ofNat 16 ts, BitVec.ofNat 32 payload, BitVec.ofNat 8 ck⟩

end Sys2Proof
end

