-- ==== Sys2Proof/Machine/Operands.lean ====
section
/-! DEFINITION. The operand slices of 30_encoding.md R65: "Every operand a unit reads is one of these fixed slices of
the frame fields. No operand is scaled, shifted or extended at extraction". The signed offset applied after extraction
is 44_payload.md R115. -/

namespace Sys2Proof.Machine

/-- `hi = p[31:16]`, lane 1, the X field (R65; 20_memory.md R47; 44_payload.md R120). -/
def hiHalf (p : PayloadWord) : Half := p.extractLsb' 16 16

/-- `lo = p[15:0]`, lane 0, the Y field (R65). -/
def loHalf (p : PayloadWord) : Half := p.extractLsb' 0 16

/-- `b0 = p[7:0]` (R65; "least-significant byte first", 20_memory.md R48). -/
def byte0 (p : PayloadWord) : Byte := p.extractLsb' 0 8

/-- `b1 = p[15:8]` (R65). -/
def byte1 (p : PayloadWord) : Byte := p.extractLsb' 8 8

/-- `b2 = p[23:16]` (R65). -/
def byte2 (p : PayloadWord) : Byte := p.extractLsb' 16 8

/-- `b3 = p[31:24]` (R65). -/
def byte3 (p : PayloadWord) : Byte := p.extractLsb' 24 8

/-- The signed offset `v = h - 32767`: "exact integer subtraction ... not taken modulo 2^16 and not read as two's
complement" (44_payload.md R115). -/
def signedOffset (h : Half) : Int := (h.toNat : Int) - decOffset

end Sys2Proof.Machine
end

