-- ==== Sys2Proof/Machine/State.lean ====
section
/-! DEFINITION. The block's state as plain data: the four tracker records (10_state.md R20 to R22), and the model's
own fields for the three ports (20_memory.md R41 to R46). The reasons a step can stop. The state after reset. -/

namespace Sys2Proof.Machine

/-- SequenceState (R21): 33 bits. -/
structure SequenceState where
  /-- `last_fn`: frame number of the most recent frame of the category. -/
  lastFn : Half
  /-- `drop`: cumulative drop count reported for the most recent frame of the category. -/
  drop : Half
  /-- `seen`: 1 once a frame of the category has been processed since the last RESET. -/
  seen : Bool
deriving DecidableEq, Repr

/-- TimingState (R22): 17 bits. -/
structure TimingState where
  /-- `last_ts`: timestamp of the most recent frame of the category. -/
  lastTs : Half
  /-- `seen`: 1 once a frame of the category has been processed since the last RESET. -/
  seen : Bool
deriving DecidableEq, Repr

/-- What the record port carries when `rec_valid` = 1 (20_memory.md R42), in its field order. -/
structure OutputRecord where
  id : Ident
  cat : BitVec 2
  fn : Half
  ts : Half
  posX : FloatBits
  posY : FloatBits
  velX : FloatBits
  velY : FloatBits
  checksumOk : Bool
  timingOk : Bool
  drop : Half
deriving DecidableEq, Repr

/-- What the diagnostic port carries when `diag_valid` = 1 (20_memory.md R43). -/
structure Diagnostic where
  code : Byte
  id : Ident
deriving DecidableEq, Repr

/-- The machine's state. The first four fields are the architectural state, exactly (R20, R31). The other three are the
model's own: a step reads its operation from the head of `opStream` (log 1) and leaves its response on the two output
ports, `none` standing for a valid bit of 0 (log 2; R46: such a port has no value). -/
structure State where
  /-- `S.seq[POS]`. -/
  seqPos : SequenceState
  /-- `S.seq[VEL]`. -/
  seqVel : SequenceState
  /-- `S.tim[POS]`. -/
  timPos : TimingState
  /-- `S.tim[VEL]`. -/
  timVel : TimingState
  /-- The record port as the last step drove it. -/
  recPort : Option OutputRecord
  /-- The diagnostic port as the last step drove it. -/
  diagPort : Option Diagnostic
  /-- What the host will present on the operation port in the coming steps, the next step's first. -/
  opStream : List OpPort
deriving DecidableEq, Repr

/-- The faults of the block: none. "The block raises no synchronous exception and takes no trap. No operation can fail,
abort or stall on any input value" (60_exceptions.md R150). Nothing raises one, so nothing is safe or unsafe here. -/
inductive Fault : Type where
deriving DecidableEq, Repr

/-- The refusals. -/
inductive Refusal : Type where
  /-- Raised by `exec` alone, for an instruction that has no meaning yet; safe (the model stops). No arm raises it:
  every operation of the block has its meaning. -/
  | notModelled (mnemonic : String)
deriving DecidableEq, Repr

/-- A Sequence tracker after RESET (10_state.md R32). -/
def SequenceState.initial : SequenceState := ⟨0, 0, false⟩

/-- A Timing tracker after RESET (R32). -/
def TimingState.initial : TimingState := ⟨0, false⟩

/-- The machine at power-on, which is the state a RESET leaves (10_state.md R32; 70_reset_and_hazards.md R170). No step
has been taken, so no response is presented, and the host has presented nothing yet (logs 1 and 2). -/
def State.reset : State where
  seqPos := .initial
  seqVel := .initial
  timPos := .initial
  timVel := .initial
  recPort := none
  diagPort := none
  opStream := []

end Sys2Proof.Machine
end

