-- ==== Sys2Proof/Machine/Flags.lean ====
section
/-! DEFINITION. The two result flags of a record (10_state.md R28): `checksum_ok` (41_checksum.md R81) and `timing_ok`
(43_timing.md R102), and the modular sums and differences they and the drop count are made of. -/

namespace Sys2Proof.Machine

/-- `s = u8(b0 + b1 + b2 + b3)` (R81): "sum them modulo 256". -/
def byteSum (p : PayloadWord) : Byte := byte0 p + byte1 p + byte2 p + byte3 p

/-- CHK, the Checksum Validator (R80, R81): "valid iff the final 8-bit sum equals zero". -/
def checksumOk (payload : PayloadWord) (checksum : Byte) : Bool := byteSum payload + checksum == 0

/-- `gap = u16(fn - last_fn - 1)`, "16-bit wraparound" (42_sequence.md R91). -/
def gap (lastFn fn : Half) : Half := fn - lastFn - 1

/-- `delta = u16(ts - last_ts)`, "16-bit wraparound" (R102). -/
def delta (lastTs ts : Half) : Half := ts - lastTs

/-- The acceptable window of a category, the closed interval `[LO[c], HI[c]]` (43_timing.md R101). -/
def inWindow (c : Recognised) (d : Half) : Bool := decide (lo c ≤ d) && decide (d ≤ hi c)

/-- TIM's result (R102): on time at the first frame of the category, else iff the delta is in the window. -/
def timingOk (c : Recognised) (t : TimingState) (ts : Half) : Bool :=
  if t.seen then inWindow c (delta t.lastTs ts) else true

/-- SEQ's result `d` (42_sequence.md R91): 0 at the first frame of the category, else the 16-bit sum of the count and
the gap, which never saturates (R93). -/
def nextDrop (q : SequenceState) (fn : Half) : Half :=
  if q.seen then q.drop + gap q.lastFn fn else 0

end Sys2Proof.Machine
end

