-- ==== Sys2Proof/Machine/Float.lean ====
section
/-! DEFINITION. Rounding an exact rational to IEEE 754 binary32, to nearest, ties to even (44_payload.md R111;
30_encoding.md R67). A rational is given as numerator and positive denominator. The significand width is a parameter,
so that the computation paths of R116 (through binary64) can be stated with the same rounding. -/

namespace Sys2Proof.Machine

/-- `2^k <= n/d`, by cross-multiplication. -/
def powLe (k : Int) (n d : Nat) : Bool := decide (d * 2 ^ k.toNat ≤ n * 2 ^ (-k).toNat)

/-- "`e` = the integer with `2^e <= a < 2^(e+1)`" for `a = n/d` (R111). -/
def floorLog2 (n d : Nat) : Int :=
  let k : Int := (Nat.log2 n : Int) - (Nat.log2 d : Int)
  if powLe k n d then k else k - 1

/-- The quotient `n/d` rounded to the nearest integer, ties to even: R111's `M` from `m`. -/
def roundQuotient (n d : Nat) : Nat :=
  let q := n / d
  let r := n % d
  if d < 2 * r ∨ (2 * r = d ∧ q % 2 = 1) then q + 1 else q

/-- R111's `M` and `e` for `a = n/d` and a significand of `p` bits (24 for binary32): the magnitude
`M * 2^(e - (p-1))` with `2^(p-1) <= M < 2^p`. -/
def roundSignificand (p n d : Nat) : Nat × Int :=
  let e := floorLog2 n d
  let shift : Int := (p : Int) - 1 - e
  let m := roundQuotient (n * 2 ^ shift.toNat) (d * 2 ^ (-shift).toNat)
  if m = 2 ^ p then (2 ^ (p - 1), e + 1) else (m, e)

/-- The bit pattern `{ s[0], u8(e + 127)[7:0], (M - 2^23)[22:0] }` (R111). -/
def packBinary32 (s : Bool) (m : Nat) (e : Int) : FloatBits :=
  BitVec.ofBool s ++ BitVec.ofInt 8 (e + 127) ++ BitVec.ofNat 23 (m - 2 ^ 23)

/-- `rne32(num/den)` (R111). -/
def rne32 (num : Int) (den : Nat) : FloatBits :=
  if num = 0 then 0
  else
    let r := roundSignificand 24 num.natAbs den
    packBinary32 (decide (num < 0)) r.1 r.2

/-- Bit 31, the sign (30_encoding.md R67). -/
def floatSign (b : FloatBits) : Bool := b.getLsbD 31

/-- Bits `[30:23]`, the biased exponent (R67). -/
def floatExp (b : FloatBits) : BitVec 8 := b.extractLsb' 23 8

/-- Bits `[22:0]`, the fraction (R67). -/
def floatFrac (b : FloatBits) : BitVec 23 := b.extractLsb' 0 23

/-- Neither an infinity nor a NaN. PRESUMED (log 4): the spec names the classes (44_payload.md R117) and the layout
(R67), and the biased exponent 255 of the infinities and NaNs is IEEE 754's. -/
def floatFinite (b : FloatBits) : Bool := floatExp b != 255

/-- A subnormal: biased exponent 0 and a nonzero fraction. PRESUMED (log 4), IEEE 754's. -/
def floatSubnormal (b : FloatBits) : Bool := floatExp b == 0 && floatFrac b != 0

/-- The number a finite pattern stands for (R67: bias 127). PRESUMED (log 4): biased exponent 0 is IEEE 754's zero and
subnormals. -/
def floatValue (b : FloatBits) : ℚ :=
  (if floatSign b then -1 else 1) *
    (if floatExp b = 0 then (floatFrac b).toNat * (2 : ℚ) ^ (-149 : Int)
     else (2 ^ 23 + (floatFrac b).toNat : ℚ) * (2 : ℚ) ^ (((floatExp b).toNat : Int) - 150))

/-- The magnitude of the binary64 quotient of `n` by `d` as a fraction (numerator, denominator): `n/d` rounded to 53
significant bits, for the computation path of R116. PRESUMED (log 4): the significand width of binary64. -/
def quotient64 (n d : Nat) : Nat × Nat :=
  let r := roundSignificand 53 n d
  let k : Int := r.2 - 52
  (r.1 * 2 ^ k.toNat, 2 ^ (-k).toNat)

/-- R116's first path: the integer `num` divided by the integer `den` in binary64, then rounded to binary32. -/
def divideThrough64 (num : Int) (den : Nat) : FloatBits :=
  if num = 0 then 0
  else
    let q := quotient64 num.natAbs den
    rne32 (if num < 0 then -(q.1 : Int) else (q.1 : Int)) q.2

end Sys2Proof.Machine
end

