-- ==== Sys2Proof/Machine/Payload.lean ====
section
/-! DEFINITION. The Payload Decoder (44_payload.md R110): a combinational unit with no state. It runs for a Position or
a Velocity frame only (R119), which its argument's type says. -/

namespace Sys2Proof.Machine

/-- The decoder's four binary32 outputs (R110). -/
structure DecodedFields where
  posX : FloatBits
  posY : FloatBits
  velX : FloatBits
  velY : FloatBits
deriving DecidableEq, Repr

/-- DEC_POS (R112). The unpopulated pair is +0 (R114). -/
def decodePos (payload : PayloadWord) : DecodedFields where
  posX := rne32 ((hiHalf payload).toNat : Int) posXDiv
  posY := rne32 (signedOffset (loHalf payload)) posYDiv
  velX := 0x00000000
  velY := 0x00000000

/-- DEC_VEL (R113). The unpopulated pair is +0 (R114). -/
def decodeVel (payload : PayloadWord) : DecodedFields where
  posX := 0x00000000
  posY := 0x00000000
  velX := rne32 (signedOffset (hiHalf payload)) velDiv
  velY := rne32 (signedOffset (loHalf payload)) velDiv

/-- `decode(category, payload) -> DecodedFields` (R110). -/
def decodePayload : Recognised → PayloadWord → DecodedFields
  | .pos, payload => decodePos payload
  | .vel, payload => decodeVel payload

end Sys2Proof.Machine
end

