-- ==== Sys2Proof/Machine/Ops.lean ====
section
/-! DEFINITION. The named operations over the state: the accessors of the trackers, the sequential units, the ports.

Taking an exception: the block has none. "It saves no state on any event, has no vector table or handler address, and
has no return operation" (60_exceptions.md R156; R150). Its one exceptional outcome is a response on the diagnostic
port (R151), `State.presentDiagnostic`. There is no memory either (20_memory.md R40). -/

namespace Sys2Proof.Machine

/-! ## Trackers -/

/-- Read `S.seq[c]` (00_scope.md R10). -/
def State.seq (s : State) : Recognised → SequenceState
  | .pos => s.seqPos
  | .vel => s.seqVel

/-- Read `S.tim[c]` (R10). -/
def State.tim (s : State) : Recognised → TimingState
  | .pos => s.timPos
  | .vel => s.timVel

/-- Write `S.seq[c]` (R10). -/
def State.setSeq (s : State) : Recognised → SequenceState → State
  | .pos, q => { s with seqPos := q }
  | .vel, q => { s with seqVel := q }

/-- Write `S.tim[c]` (R10). -/
def State.setTim (s : State) : Recognised → TimingState → State
  | .pos, t => { s with timPos := t }
  | .vel, t => { s with timVel := t }

/-- SEQ: the Sequence Tracker's write for a frame of category `c` (42_sequence.md R91). Its result is `nextDrop`. -/
def seqStep (c : Recognised) (fn : Half) (s : State) : State :=
  s.setSeq c ⟨fn, nextDrop (s.seq c) fn, true⟩

/-- TIM: the Timing Validator's write for a frame of category `c` (43_timing.md R102). Its result is `timingOk`. -/
def timStep (c : Recognised) (ts : Half) (s : State) : State :=
  s.setTim c ⟨ts, true⟩

/-- All four trackers to their reset values (45_frame_processor.md R134; 10_state.md R32). -/
def clearTrackers (s : State) : State :=
  { s with seqPos := .initial, seqVel := .initial, timPos := .initial, timVel := .initial }

/-! ## Responses (20_memory.md R42 to R44) -/

/-- `emit Record`: `rec_valid` = 1, `diag_valid` = 0. -/
def State.presentRecord (r : OutputRecord) (s : State) : State :=
  { s with recPort := some r, diagPort := none }

/-- `emit Diag`: `diag_valid` = 1, `rec_valid` = 0. -/
def State.presentDiagnostic (d : Diagnostic) (s : State) : State :=
  { s with recPort := none, diagPort := some d }

/-- No response: `rec_valid` = 0, `diag_valid` = 0. -/
def State.presentNothing (s : State) : State :=
  { s with recPort := none, diagPort := none }

/-! ## The record of a frame, and the frame's step -/

/-- Record assembly (45_frame_processor.md R136): "A record's fields all come from the same frame and from the same
pre-step state" (20_memory.md R50). -/
def assembleRecord (c : Recognised) (f : Frame) (s : State) : OutputRecord where
  id := f.id
  cat := catCode c.category
  fn := f.fn
  ts := f.ts
  posX := (decodePayload c f.payload).posX
  posY := (decodePayload c f.payload).posY
  velX := (decodePayload c f.payload).velX
  velY := (decodePayload c f.payload).velY
  checksumOk := checksumOk f.payload f.ck
  timingOk := timingOk c (s.tim c) f.ts
  drop := nextDrop (s.seq c) f.fn

/-- The four units on a frame of category `c`, "on every frame, unconditionally" (45_frame_processor.md R135), and the
record; every read is of the pre-step state `s` (00_scope.md R7). -/
def processFrame (c : Recognised) (f : Frame) (s : State) : State :=
  (timStep c f.ts (seqStep c f.fn s)).presentRecord (assembleRecord c f s)

/-! ## The operation port -/

/-- What the operation port carries in the next step: the head of the host's stream, or nothing (log 1). -/
def State.currentOp (s : State) : OpPort := s.opStream.headD .nothing

/-- The state in which the next step's operation has been sampled, once (20_memory.md R50). -/
def State.takeOp (s : State) : State := { s with opStream := s.opStream.tail }

/-- The host presents `p` in the very next step. -/
def State.presentOp (p : OpPort) (s : State) : State := { s with opStream := p :: s.opStream }

end Sys2Proof.Machine
end

