-- ==== Sys2Proof/Machine/FrameProcessor.lean ====
section
/-! DEFINITION. The meanings of the five operations (45_frame_processor.md R131 to R134; 20_memory.md R45). Every one
answers a next state, in every state and on every operand (60_exceptions.md R150). -/

namespace Sys2Proof.Machine

/-- PROC_POS (R131): process one Position frame. `in_id` is 15, which the row fixes. -/
def execProcPos (fn ts : Half) (payload : PayloadWord) (ck : Byte) (s : State) : Host.Outcome State Fault Refusal :=
  .next (processFrame .pos ⟨identOf .pos, fn, ts, payload, ck⟩ s)

/-- PROC_VEL (R132): process one Velocity frame. `in_id` is 78, which the row fixes. -/
def execProcVel (fn ts : Half) (payload : PayloadWord) (ck : Byte) (s : State) : Host.Outcome State Fault Refusal :=
  .next (processFrame .vel ⟨identOf .vel, fn, ts, payload, ck⟩ s)

/-- SKIP_UNKNOWN (R133): one diagnostic with the identifier; "no Record; no state read or written; checksum, sequence,
timing and payload units do not run". -/
def execSkipUnknown (id : Ident) (s : State) : Host.Outcome State Fault Refusal :=
  .next (s.presentDiagnostic ⟨diagUnknownId, id⟩)

/-- RESET (R134): start a new decode run. -/
def execReset (s : State) : Host.Outcome State Fault Refusal :=
  .next (clearTrackers s).presentNothing

/-- IDLE (20_memory.md R45): `S' = S;  rec_valid <- 0;  diag_valid <- 0`. -/
def execIdle (s : State) : Host.Outcome State Fault Refusal :=
  .next s.presentNothing

end Sys2Proof.Machine
end

