-- ==== Sys2Proof/Machine/Dispatch.lean ====
section
/-! DEFINITION. The dispatch: one arm per operation, each one direct call of its meaning. -/

namespace Sys2Proof.Machine

def exec (i : Instr) (s : State) : Host.Outcome State Fault Refusal :=
  match i with
  | .procPos fn ts payload ck => Sys2Proof.Machine.execProcPos fn ts payload ck s
  | .procVel fn ts payload ck => Sys2Proof.Machine.execProcVel fn ts payload ck s
  | .skipUnknown id _ _ _ _ => Sys2Proof.Machine.execSkipUnknown id s
  | .reset => Sys2Proof.Machine.execReset s
  | .idle => Sys2Proof.Machine.execIdle s

end Sys2Proof.Machine
end

