-- ==== Sys2Proof/Machine/Step.lean ====
section
/-! DEFINITION. One step of the block: sample the operation port once, and execute the operation it selects
(00_scope.md R7; 20_memory.md R41, R50, R51). -/

namespace Sys2Proof.Machine

/-- One step (R7): "Each step carries exactly one operation of rule R2, in the order the host presents them". -/
def step (s : State) : Host.Outcome State Fault Refusal :=
  exec (decode s.currentOp) s.takeOp

/-- The host presents, in the very next step, the operation of a table word of `nbits` bits (log 3). A word that drives
no operation port presents nothing more. -/
def State.withFetchWord (s : State) (nbits w : Nat) : State :=
  match OpPort.ofTableWord nbits w with
  | .ok p => s.presentOp p
  | .error _ => s

end Sys2Proof.Machine
end

