-- ==== Sys2Proof/Machine/Words.lean ====
section
/-! DEFINITION. The spec's words for what the block presents and holds: OR196 (30_encoding.md R66), DG24 (R68), and the
100 bits of the tracker state (10_state.md R31). -/

namespace Sys2Proof.Machine

/-- `OR196` (R66, decision D16). -/
def OutputRecord.word (r : OutputRecord) : BitVec 196 :=
  r.id ++ r.cat ++ r.fn ++ r.ts ++ r.posX ++ r.posY ++ r.velX ++ r.velY
    ++ BitVec.ofBool r.checksumOk ++ BitVec.ofBool r.timingOk ++ r.drop

/-- The record of an OR196 word, each field at the bits R66 gives it. -/
def OutputRecord.ofWord (w : BitVec 196) : OutputRecord where
  id := w.extractLsb' 180 16
  cat := w.extractLsb' 178 2
  fn := w.extractLsb' 162 16
  ts := w.extractLsb' 146 16
  posX := w.extractLsb' 114 32
  posY := w.extractLsb' 82 32
  velX := w.extractLsb' 50 32
  velY := w.extractLsb' 18 32
  checksumOk := w.getLsbD 17
  timingOk := w.getLsbD 16
  drop := w.extractLsb' 0 16

/-- `DG24 = {diag_code[7:0], diag_id[15:0]}` (R68, decision D14). -/
def Diagnostic.word (d : Diagnostic) : BitVec 24 := d.code ++ d.id

/-- A Sequence tracker's 33 bits (10_state.md R31), in the field order of R21. -/
def SequenceState.word (q : SequenceState) : BitVec 33 := q.lastFn ++ q.drop ++ BitVec.ofBool q.seen

/-- A Timing tracker's 17 bits (R31), in the field order of R22. -/
def TimingState.word (t : TimingState) : BitVec 17 := t.lastTs ++ BitVec.ofBool t.seen

/-- The architectural state's 100 bits (R31). The spec gives their number and no order: DESIGN CHOICE (log 5), Position
before Velocity and Sequence before Timing. -/
def State.trackerWord (s : State) : BitVec 100 :=
  s.seqPos.word ++ s.timPos.word ++ s.seqVel.word ++ s.timVel.word

end Sys2Proof.Machine
end

