-- ==== Sys2Proof/Safety.lean ====
section
/-! DEFINITION. The terms claims are made in: what a stream of operations makes the block present, which operations
concern a category, when two states agree on a category, and the invariant of the machine. A run is safe when every
step answers a next state; by 60_exceptions.md R150 every run is. -/

namespace Sys2Proof.Machine

/-! ## The spec's integers (00_scope.md R9) -/

/-- `u16(v) = v mod 65536`, "the representative in `[0, modulus)`, also for negative `v`" (R9). -/
def u16 (v : Int) : Int := v % 65536

/-- `u8(v) = v mod 256` (R9). -/
def u8 (v : Int) : Int := v % 256

/-! ## Frame operations of a recognised category -/

/-- The frame operation of category `c`. -/
def procOf : Recognised → Half → Half → PayloadWord → Byte → Instr
  | .pos => .procPos
  | .vel => .procVel

/-! ## Streams (20_memory.md R51) -/

/-- What a step presents: the record port and the diagnostic port after it (R44). -/
abbrev Response := Option OutputRecord × Option Diagnostic

/-- The state in which the host is about to present exactly the stream `ops`. -/
def State.withStream (s : State) (ops : List OpPort) : State := { s with opStream := ops }

/-- The responses of the next `k` steps, in order. A step that did not answer a next state would end the list. -/
def responses : Nat → State → List Response
  | 0, _ => []
  | k + 1, s =>
    match step s with
    | .next s' => (s'.recPort, s'.diagPort) :: responses k s'
    | .fault _ => []
    | .refused _ => []

/-- The responses, one per operation, when the host presents the stream `ops` from `s` on. -/
def responsesTo (ops : List OpPort) (s : State) : List Response :=
  responses ops.length (s.withStream ops)

/-- The outcome of presenting the stream `ops` from `s` on, run to its end. -/
def outcomeOf (ops : List OpPort) (s : State) : Host.Outcome State Fault Refusal :=
  Sys2Proof.core.run ops.length (s.withStream ops)

/-- The records among a list of responses, in order. -/
def recordsIn (rs : List Response) : List OutputRecord := rs.filterMap (·.1)

/-- The records of category `c` among a list of responses (their category code says so, 30_encoding.md R63). -/
def recordsOf (c : Recognised) (rs : List Response) : List OutputRecord :=
  (recordsIn rs).filter (fun r => r.cat == catCode c.category)

/-- The operation is RESET (30_encoding.md R64). -/
def isReset (p : OpPort) : Bool := p.rst

/-- The operation is a frame operation of category `c` (R64). -/
def isFrameOf (c : Recognised) (p : OpPort) : Bool :=
  !p.rst && p.opValid && categoryOf p.frame.id == c.category

/-- The operation is a frame with an unrecognised identifier (R64). -/
def isUnknownFrame (p : OpPort) : Bool :=
  !p.rst && p.opValid && categoryOf p.frame.id == .unk

/-- "the RESETs and the frames of category `c`" (45_frame_processor.md R138). -/
def keeps (c : Recognised) (p : OpPort) : Bool := isReset p || isFrameOf c p

/-- Everything but "the Unknown frames and IDLE steps" (R138). -/
def keepsAny (p : OpPort) : Bool := isReset p || isFrameOf .pos p || isFrameOf .vel p

/-- The other recognised category. -/
def other : Recognised → Recognised
  | .pos => .vel
  | .vel => .pos

/-! ## Agreement of states -/

/-- The two states hold the same trackers of category `c`. -/
def AgreeOn (c : Recognised) (s t : State) : Prop := s.seq c = t.seq c ∧ s.tim c = t.tim c

/-- The two states hold the same four tracker records, the whole architectural state (10_state.md R20). -/
def SameTrackers (s t : State) : Prop :=
  s.seqPos = t.seqPos ∧ s.seqVel = t.seqVel ∧ s.timPos = t.timPos ∧ s.timVel = t.timVel

/-- The two Sequence trackers differ at most in fields that no output can show: equal, or both with `seen` = 0
(10_state.md R33). -/
def SequenceState.Alike (q q' : SequenceState) : Prop := q = q' ∨ (q.seen = false ∧ q'.seen = false)

/-- The same for two Timing trackers (R33). -/
def TimingState.Alike (t t' : TimingState) : Prop := t = t' ∨ (t.seen = false ∧ t'.seen = false)

/-- The two states differ at most in tracker fields that no output can show (R33). -/
def Alike (s t : State) : Prop := ∀ c, (s.seq c).Alike (t.seq c) ∧ (s.tim c).Alike (t.tim c)

/-! ## The invariant -/

/-- What is true of a record on the record port right after the step that presented it: it is of a recognised category
with that category's identifier, the trackers remember its fields (10_state.md R21, R22), and the pair its category
does not populate is +0 (44_payload.md R114). -/
structure RecordFits (c : Recognised) (r : OutputRecord) (s : State) : Prop where
  cat : r.cat = catCode c.category
  id : r.id = identOf c
  drop : r.drop = (s.seq c).drop
  fn : r.fn = (s.seq c).lastFn
  ts : r.ts = (s.tim c).lastTs
  seen : (s.seq c).seen = true
  unpopulated : if c = .pos then r.velX = 0 ∧ r.velY = 0 else r.posX = 0 ∧ r.posY = 0

/-- The invariant every step keeps. -/
structure Inv (s : State) : Prop where
  /-- "at every step boundary `S.seq[c].seen = S.tim[c].seen`" (10_state.md R30). -/
  seenEqual : ∀ c, (s.seq c).seen = (s.tim c).seen
  /-- A category with no frame since RESET still has the trackers RESET left (R32; 45_frame_processor.md R134). -/
  unseenInitial : ∀ c, (s.seq c).seen = false → s.seq c = .initial ∧ s.tim c = .initial
  /-- At most one response is presented (20_memory.md R44). -/
  oneResponse : s.recPort = none ∨ s.diagPort = none
  /-- A presented record fits the state. -/
  recordFits : ∀ r, s.recPort = some r → ∃ c, RecordFits c r s
  /-- A presented diagnostic has the one code there is and an unrecognised identifier (60_exceptions.md R151). -/
  diagnosticFits : ∀ d, s.diagPort = some d → d.code = 0x01 ∧ categoryOf d.id = .unk

end Sys2Proof.Machine
end

