-- ==== Sys2Proof/Certificates/Slice0/Obligations.lean ====
section
/-! DEFINITION. The statements about the block, one `def Obligations.<Name> : Prop` each. A docstring names the rule of
spec/ that the statement formalises, and the spec's own decision (D<n>) where the rule rests on one. The prefix
`Sys2Proof.Machine.u16` and `u8` are the spec's wrap functions on integers (00_scope.md R9). -/

open Sys2Proof Sys2Proof.Machine

/-! ## Encoding -/

/-- For every well-formed operation, decoding what the encoder presents gives the operation back, every operand
included (30_encoding.md R60, R64). -/
def Obligations.DecodeOfEncodeIsTheInstruction : Prop :=
  ∀ i : Instr, i.WellFormed → decode (encode i) = i

/-- The other direction, over all 2^88 frame words (R69): a frame word selects a well-formed frame operation, and
encoding that operation presents the same frame word again. -/
def Obligations.EveryFrameWordSelectsOneOperation : Prop :=
  ∀ w : BitVec 88,
    (decode (.ofFrame (Frame.ofWord w))).WellFormed ∧
    encode (decode (.ofFrame (Frame.ofWord w))) = .ofFrame (Frame.ofWord w) ∧
    (encode (decode (.ofFrame (Frame.ofWord w)))).frame.word = w

/-- R60 (decision D15): the frame word is the five fields at the bits of the table, and the fields determine it. -/
def Obligations.FrameWordFieldsStandWhereTheTablePutsThem : Prop :=
  (∀ f : Frame,
    f.word.extractLsb' 72 16 = f.id ∧ f.word.extractLsb' 56 16 = f.fn ∧ f.word.extractLsb' 40 16 = f.ts ∧
    f.word.extractLsb' 8 32 = f.payload ∧ f.word.extractLsb' 0 8 = f.ck ∧ Frame.ofWord f.word = f) ∧
  (∀ w : BitVec 88, (Frame.ofWord w).word = w)

/-- R61 (decision D4): for an identifier port of any width `W`, the frame word's identifier sits at `[W+71:72]` and the
other fields where R60 puts them; and for `W >= 7` the category is read off by comparison with 15 and 78 alone. -/
def Obligations.EncodingHoldsForEveryIdentifierWidth : Prop :=
  ∀ (W : Nat) (id : BitVec W) (fn ts : Half) (payload : PayloadWord) (ck : Byte),
    (frameWord id fn ts payload ck).extractLsb' 72 W = id ∧
    (frameWord id fn ts payload ck).extractLsb' 56 16 = fn ∧
    (frameWord id fn ts payload ck).extractLsb' 40 16 = ts ∧
    (frameWord id fn ts payload ck).extractLsb' 8 32 = payload ∧
    (frameWord id fn ts payload ck).extractLsb' 0 8 = ck ∧
    (7 ≤ W → (categoryOf id = .pos ↔ id = 15#W) ∧ (categoryOf id = .vel ↔ id = 78#W))

/-- R62 (decision D7): the category of a frame is a function of its identifier's integer value alone, over all its
bits. -/
def Obligations.CategoryIsTheIdentifiersValue : Prop :=
  ∀ id : Ident,
    categoryOf id = (if id.toNat = 15 then .pos else if id.toNat = 78 then .vel else .unk) ∧
    (categoryOf id = .pos ↔ id = 0x000F) ∧ (categoryOf id = .vel ↔ id = 0x004E)

/-- R64 (decision D2): the step's operation is selected from the control inputs and the identifier, in the order RESET,
IDLE, PROC_POS, PROC_VEL, SKIP_UNKNOWN; in FW88 terms, by `FW88[87:72]`. -/
def Obligations.OperationSelectionFollowsTheControlInputsAndTheIdentifier : Prop :=
  ∀ (rst valid : Bool) (w : BitVec 88),
    decode ⟨rst, valid, Frame.ofWord w⟩ =
      (if rst = true then .reset
       else if valid = false then .idle
       else if w.extractLsb' 72 16 = 0x000F then
         .procPos (w.extractLsb' 56 16) (w.extractLsb' 40 16) (w.extractLsb' 8 32) (w.extractLsb' 0 8)
       else if w.extractLsb' 72 16 = 0x004E then
         .procVel (w.extractLsb' 56 16) (w.extractLsb' 40 16) (w.extractLsb' 8 32) (w.extractLsb' 0 8)
       else
         .skipUnknown (w.extractLsb' 72 16) (w.extractLsb' 56 16) (w.extractLsb' 40 16) (w.extractLsb' 8 32)
           (w.extractLsb' 0 8))

/-- Words of the spec's O-table (95_test_vectors.md), written out, decode to what they stand for. -/
def Obligations.WrittenWordsDecodeToTheirOperations : Prop :=
  decodeTableWord 88 0x000F_0001_03E8_0000FFFF_02 = some (.procPos 1 1000 0x0000FFFF 0x02) ∧
  decodeTableWord 88 0x004E_000A_01F4_7FFF7FFF_04 = some (.procVel 10 500 0x7FFF7FFF 0x04) ∧
  decodeTableWord 88 0x0063_0007_0007_DEADBEEF_00 = some (.skipUnknown 99 7 7 0xDEADBEEF 0x00) ∧
  decodeTableWord 88 0x010F_0000_0000_00000000_00 = some (.skipUnknown 271 0 0 0 0) ∧
  decode ⟨true, true, ⟨15, 0, 0, 0, 0⟩⟩ = .reset ∧
  decode ⟨false, false, ⟨15, 0, 0, 0, 0⟩⟩ = .idle

/-- R71 (decision D25): RESET and IDLE lines are control-input values, and a FRAME line whose numbers fit their fields
assembles to FW88. -/
def Obligations.AssemblerLinesPresentTheirOperations : Prop :=
  decode AsmLine.reset.assemble = .reset ∧ decode AsmLine.idle.assemble = .idle ∧
  ∀ id fn ts payload ck : Nat, id < 2 ^ 16 → fn < 2 ^ 16 → ts < 2 ^ 16 → payload < 2 ^ 32 → ck < 2 ^ 8 →
    (AsmLine.frame id fn ts payload ck).assemble.rst = false ∧
    (AsmLine.frame id fn ts payload ck).assemble.opValid = true ∧
    (AsmLine.frame id fn ts payload ck).assemble.frame.word.toNat
      = id * 2 ^ 72 + fn * 2 ^ 56 + ts * 2 ^ 40 + payload * 2 ^ 8 + ck

/-- R66 (decision D16): OR196 holds the record's fields at the bits of the table, and the word determines the record. -/
def Obligations.RecordWordFieldsStandWhereTheTablePutsThem : Prop :=
  (∀ r : OutputRecord,
    r.word.extractLsb' 180 16 = r.id ∧ r.word.extractLsb' 178 2 = r.cat ∧ r.word.extractLsb' 162 16 = r.fn ∧
    r.word.extractLsb' 146 16 = r.ts ∧ r.word.extractLsb' 114 32 = r.posX ∧ r.word.extractLsb' 82 32 = r.posY ∧
    r.word.extractLsb' 50 32 = r.velX ∧ r.word.extractLsb' 18 32 = r.velY ∧
    r.word.extractLsb' 17 1 = BitVec.ofBool r.checksumOk ∧ r.word.extractLsb' 16 1 = BitVec.ofBool r.timingOk ∧
    r.word.extractLsb' 0 16 = r.drop ∧ OutputRecord.ofWord r.word = r) ∧
  (∀ w : BitVec 196, (OutputRecord.ofWord w).word = w)

/-- R68 (decision D14): DG24 holds the code in bits `[23:16]` and the identifier in bits `[15:0]`. -/
def Obligations.DiagnosticWordHoldsCodeAndIdentifier : Prop :=
  ∀ d : Diagnostic, d.word.extractLsb' 16 8 = d.code ∧ d.word.extractLsb' 0 16 = d.id ∧
    d.word.toNat = d.code.toNat * 2 ^ 16 + d.id.toNat

/-- R65, the payload's operands: they are the fixed slices of the payload; `hi`, `lo` and the four bytes, as integers. -/
def Obligations.OperandsAreTheFixedSlices : Prop :=
  ∀ p : PayloadWord,
    (hiHalf p).toNat = p.toNat / 2 ^ 16 ∧ (loHalf p).toNat = p.toNat % 2 ^ 16 ∧
    (byte0 p).toNat = p.toNat % 2 ^ 8 ∧ (byte1 p).toNat = p.toNat / 2 ^ 8 % 2 ^ 8 ∧
    (byte2 p).toNat = p.toNat / 2 ^ 16 % 2 ^ 8 ∧ (byte3 p).toNat = p.toNat / 2 ^ 24 ∧
    byte3 p ++ byte2 p ++ byte1 p ++ byte0 p = p ∧ hiHalf p ++ loHalf p = p

/-! ## Steps -/

/-- A step executes the operation that the operation port selects: the head of the host's stream, sampled once, and IDLE
where the host presents nothing. (That the stream is a list, and that nothing presented is IDLE, is the model's choice:
log 1.) -/
def Obligations.StepExecutesTheSelectedOperation : Prop :=
  ∀ s : State,
    (∀ p rest, s.opStream = p :: rest → step s = exec (decode p) { s with opStream := rest }) ∧
    (∀ i : Instr, i.WellFormed → step (s.presentOp (encode i)) = exec i s) ∧
    (s.opStream = [] → step s = exec .idle s)

/-- A table word presented in the next step is what that step executes (log 3). -/
def Obligations.PresentedTableWordIsExecuted : Prop :=
  ∀ (s : State) (nbits w : Nat) (i : Instr),
    decodeTableWord nbits w = some i → step (s.withFetchWord nbits w) = exec i s

/-- R150: every operation, in every state, on every operand, answers a next state, and so does every step of every
stream of operations, to its end. -/
def Obligations.NoOperationFailsAbortsOrStalls : Prop :=
  (∀ (i : Instr) (s : State), ∃ t, exec i s = .next t) ∧
  (∀ (ops : List OpPort) (s : State), ∃ t, outcomeOf ops s = .next t ∧ t.opStream = [])

/-- R44: over any stream, each step's response is one record for a Position or Velocity frame, one diagnostic for an
Unknown frame, and nothing for RESET and IDLE. -/
def Obligations.EachOperationGetsExactlyItsResponse : Prop :=
  ∀ (ops : List OpPort) (s : State),
    (responsesTo ops s).map (fun r => (r.1.isSome, r.2.isSome))
      = ops.map (fun p => (isFrameOf .pos p || isFrameOf .vel p, isUnknownFrame p))

/-- Responses leave in input order (20_memory.md R44, R51; 45_frame_processor.md R136): each record carries its own
frame's identifier, frame number and timestamp, and each diagnostic its own frame's identifier with code 0x01. -/
def Obligations.ResponsesLeaveInInputOrder : Prop :=
  ∀ (ops : List OpPort) (s : State),
    (responsesTo ops s).map (fun r => (r.1.map (fun q => (q.id, q.fn, q.ts)), r.2))
      = ops.map (fun p =>
          (if isFrameOf .pos p || isFrameOf .vel p then some (p.frame.id, p.frame.fn, p.frame.ts) else none,
           if isUnknownFrame p then some ⟨0x01, p.frame.id⟩ else none))

/-- R51: a stream's responses are those of its first part, then those of its second part from the state the first part
leaves: "Each operation sees the state left by all earlier operations and by no later one". -/
def Obligations.OperationsTakeEffectInTheOrderPresented : Prop :=
  ∀ (xs ys : List OpPort) (s : State), ∃ t,
    outcomeOf xs s = .next t ∧
    responsesTo (xs ++ ys) s = responsesTo xs s ++ responsesTo ys t ∧
    outcomeOf (xs ++ ys) s = outcomeOf ys t

/-! ## The operations' results and frames -/

/-- R131 (PROC_POS), with the integers of R9: the operation completes in every state on every operand; the Position
trackers' new values; every field of the record; no diagnostic; and its frame: the Velocity trackers and the host's
stream are unchanged. -/
def Obligations.ProcPosUpdatesPositionAndEmitsItsRecord : Prop :=
  (∀ w : BitVec 88, w.extractLsb' 72 16 = 0x000F →
    decode ⟨false, true, Frame.ofWord w⟩ =
      .procPos (w.extractLsb' 56 16) (w.extractLsb' 40 16) (w.extractLsb' 8 32) (w.extractLsb' 0 8)) ∧
  ∀ (fn ts : Half) (p : PayloadWord) (ck : Byte) (s : State), ∃ t r,
    exec (.procPos fn ts p ck) s = .next t ∧
    (t.seqPos.drop.toNat : Int) =
      (if s.seqPos.seen = false then 0
       else u16 (s.seqPos.drop.toNat + u16 ((fn.toNat : Int) - s.seqPos.lastFn.toNat - 1))) ∧
    t.seqPos.lastFn = fn ∧ t.seqPos.seen = true ∧
    t.timPos.lastTs = ts ∧ t.timPos.seen = true ∧
    t.seqVel = s.seqVel ∧ t.timVel = s.timVel ∧ t.opStream = s.opStream ∧
    t.recPort = some r ∧ t.diagPort = none ∧
    r.id.toNat = 15 ∧ r.cat = 0b01 ∧ r.fn = fn ∧ r.ts = ts ∧ r.drop = t.seqPos.drop ∧
    (r.timingOk = true ↔
      s.timPos.seen = false ∨
        (23 ≤ u16 ((ts.toNat : Int) - s.timPos.lastTs.toNat) ∧ u16 ((ts.toNat : Int) - s.timPos.lastTs.toNat) ≤ 27)) ∧
    (r.checksumOk = true ↔
      u8 (p.toNat % 2 ^ 8 + p.toNat / 2 ^ 8 % 2 ^ 8 + p.toNat / 2 ^ 16 % 2 ^ 8 + p.toNat / 2 ^ 24 + ck.toNat) = 0) ∧
    r.posX = rne32 (p.toNat / 2 ^ 16) 100 ∧ r.posY = rne32 ((p.toNat % 2 ^ 16 : Int) - 32767) 1000 ∧
    r.velX = 0x00000000 ∧ r.velY = 0x00000000

/-- R132 (PROC_VEL): as for PROC_POS, on the Velocity trackers, with the window [47, 53] and the Velocity decode. -/
def Obligations.ProcVelUpdatesVelocityAndEmitsItsRecord : Prop :=
  (∀ w : BitVec 88, w.extractLsb' 72 16 = 0x004E →
    decode ⟨false, true, Frame.ofWord w⟩ =
      .procVel (w.extractLsb' 56 16) (w.extractLsb' 40 16) (w.extractLsb' 8 32) (w.extractLsb' 0 8)) ∧
  ∀ (fn ts : Half) (p : PayloadWord) (ck : Byte) (s : State), ∃ t r,
    exec (.procVel fn ts p ck) s = .next t ∧
    (t.seqVel.drop.toNat : Int) =
      (if s.seqVel.seen = false then 0
       else u16 (s.seqVel.drop.toNat + u16 ((fn.toNat : Int) - s.seqVel.lastFn.toNat - 1))) ∧
    t.seqVel.lastFn = fn ∧ t.seqVel.seen = true ∧
    t.timVel.lastTs = ts ∧ t.timVel.seen = true ∧
    t.seqPos = s.seqPos ∧ t.timPos = s.timPos ∧ t.opStream = s.opStream ∧
    t.recPort = some r ∧ t.diagPort = none ∧
    r.id.toNat = 78 ∧ r.cat = 0b10 ∧ r.fn = fn ∧ r.ts = ts ∧ r.drop = t.seqVel.drop ∧
    (r.timingOk = true ↔
      s.timVel.seen = false ∨
        (47 ≤ u16 ((ts.toNat : Int) - s.timVel.lastTs.toNat) ∧ u16 ((ts.toNat : Int) - s.timVel.lastTs.toNat) ≤ 53)) ∧
    (r.checksumOk = true ↔
      u8 (p.toNat % 2 ^ 8 + p.toNat / 2 ^ 8 % 2 ^ 8 + p.toNat / 2 ^ 16 % 2 ^ 8 + p.toNat / 2 ^ 24 + ck.toNat) = 0) ∧
    r.velX = rne32 ((p.toNat / 2 ^ 16 : Int) - 32767) 1000 ∧ r.velY = rne32 ((p.toNat % 2 ^ 16 : Int) - 32767) 1000 ∧
    r.posX = 0x00000000 ∧ r.posY = 0x00000000

/-- R133 (SKIP_UNKNOWN): a frame whose identifier is neither 15 nor 78 presents the diagnostic with its identifier and
no record, whatever its other fields hold, and changes no tracker and nothing of the host's stream. -/
def Obligations.SkipUnknownOnlyPresentsItsDiagnostic : Prop :=
  ∀ (id : Ident) (fn ts : Half) (p : PayloadWord) (ck : Byte) (s : State),
    (id.toNat ≠ 15 → id.toNat ≠ 78 →
      decode ⟨false, true, ⟨id, fn, ts, p, ck⟩⟩ = .skipUnknown id fn ts p ck) ∧
    ∃ t, exec (.skipUnknown id fn ts p ck) s = .next t ∧
      t.diagPort = some ⟨0x01, id⟩ ∧ t.recPort = none ∧ SameTrackers t s ∧ t.opStream = s.opStream

/-- R134 (RESET; reset values by decision D12): every tracker field takes its reset value, no response is presented, and
the host's stream is unchanged; two RESETs have the effect of one; and the frame inputs are not read. -/
def Obligations.ResetClearsEveryTracker : Prop :=
  ∀ s : State, ∃ t, exec .reset s = .next t ∧
    (∀ c, (t.seq c).seen = false ∧ (t.seq c).lastFn = 0 ∧ (t.seq c).drop = 0 ∧
      (t.tim c).seen = false ∧ (t.tim c).lastTs = 0) ∧
    t.recPort = none ∧ t.diagPort = none ∧ t.opStream = s.opStream ∧
    exec .reset t = .next t ∧
    ∀ (valid : Bool) (f : Frame), step (s.presentOp ⟨true, valid, f⟩) = .next t

/-- R137 (decision D13): RESET and a frame in the same step is RESET, whatever the frame: no response, and the same next
state as RESET with no frame. -/
def Obligations.ResetTakesPrecedenceOverAFrame : Prop :=
  ∀ (s : State) (valid : Bool) (f : Frame),
    step (s.presentOp ⟨true, valid, f⟩) = exec .reset s ∧
    responsesTo [⟨true, valid, f⟩] s = [(none, none)]

/-- R45 (IDLE, decision D2): the step reads no input field, writes no state and produces no response. -/
def Obligations.IdleChangesNothingAndPresentsNothing : Prop :=
  ∀ (s : State) (f : Frame), ∃ t, step (s.presentOp ⟨false, false, f⟩) = .next t ∧ exec .idle s = .next t ∧
    SameTrackers t s ∧ t.recPort = none ∧ t.diagPort = none ∧ t.opStream = s.opStream

/-- 20_memory.md R50 (an IDLE step is idempotent) over any number of steps in which the host presents nothing: the
trackers hold "indefinitely" (60_exceptions.md R161). -/
def Obligations.TrackersHoldWhileTheHostIsIdle : Prop :=
  ∀ (n : Nat) (s : State), s.opStream = [] → ∃ t, Sys2Proof.core.run n s = .next t ∧ SameTrackers t s

/-- R32 and R170 (decisions D12, D26): the power-on state holds the reset value of every tracker field, and a RESET
operation leaves the same trackers from any state. -/
def Obligations.PowerOnTrackersAreThoseOfReset : Prop :=
  (∀ c, State.reset.seq c = ⟨0, 0, false⟩ ∧ State.reset.tim c = ⟨0, false⟩) ∧
  (∀ s : State, ∃ t, exec .reset s = .next t ∧ SameTrackers t State.reset)

/-- R23, the writes: a frame of one category leaves the other category's trackers; and the reads: what it writes and
records is the same in any two states that agree on its own category's trackers. -/
def Obligations.FrameOfOneCategoryNeverTouchesTheOther : Prop :=
  ∀ (c : Recognised) (fn ts : Half) (p : PayloadWord) (ck : Byte) (s s' t t' : State),
    AgreeOn c s s' → exec (procOf c fn ts p ck) s = .next t → exec (procOf c fn ts p ck) s' = .next t' →
    AgreeOn (other c) t s ∧ AgreeOn c t t' ∧ t.recPort = t'.recPort

/-- 10_state.md R24: only PROC_POS, PROC_VEL and RESET write a tracker, and a category's trackers are written only by
RESET and by a frame of that category. -/
def Obligations.TrackersAreWrittenOnlyByResetAndTheirOwnFrames : Prop :=
  ∀ (s t : State) (c : Recognised), step s = .next t → keeps c s.currentOp = false → AgreeOn c t s

/-- R136: each field of the record of a frame of category `c` is the input field, the category code, or the output of
the unit the rule names, all on the pre-step state. -/
def Obligations.RecordCarriesTheUnitsOutputs : Prop :=
  ∀ (c : Recognised) (fn ts : Half) (p : PayloadWord) (ck : Byte) (s : State), ∃ t,
    exec (procOf c fn ts p ck) s = .next t ∧
    t.recPort = some
      { id := identOf c, cat := if c = .pos then 0b01 else 0b10, fn := fn, ts := ts,
        posX := (decodePayload c p).posX, posY := (decodePayload c p).posY,
        velX := (decodePayload c p).velX, velY := (decodePayload c p).velY,
        checksumOk := checksumOk p ck, timingOk := timingOk c (s.tim c) ts, drop := nextDrop (s.seq c) fn }

/-- R63 (decision D8): the category codes, and that every record any stream produces carries `01` with identifier 15 or
`10` with identifier 78: codes `00` and `11` never appear on the record port. -/
def Obligations.RecordsCarryOnlyTheTwoCategoryCodes : Prop :=
  catCode .unk = 0b00 ∧ catCode .pos = 0b01 ∧ catCode .vel = 0b10 ∧
  ∀ (ops : List OpPort) (s : State) (r : OutputRecord), r ∈ recordsIn (responsesTo ops s) →
    (r.cat = 0b01 ∧ r.id = 15) ∨ (r.cat = 0b10 ∧ r.id = 78)

/-- R114 (decision D9): in every record any stream produces, each field of the pair that the category does not populate
is binary32 +0. -/
def Obligations.UnpopulatedPairIsPlusZero : Prop :=
  ∀ (ops : List OpPort) (s : State) (r : OutputRecord), r ∈ recordsIn (responsesTo ops s) →
    (r.cat = 0b01 → r.velX = 0x00000000 ∧ r.velY = 0x00000000) ∧
    (r.cat = 0b10 → r.posX = 0x00000000 ∧ r.posY = 0x00000000)

/-- R83 (decision D30): the checksum byte changes nothing but the record's `checksum_ok`. -/
def Obligations.ChecksumGatesNothing : Prop :=
  ∀ (c : Recognised) (fn ts : Half) (p : PayloadWord) (ck ck' : Byte) (s : State), ∃ t r,
    exec (procOf c fn ts p ck) s = .next t ∧ t.recPort = some r ∧
    exec (procOf c fn ts p ck') s
      = .next { t with recPort := some { r with checksumOk := Machine.checksumOk p ck' } }

/-- R135: the order in which the Sequence Tracker and the Timing Validator run changes neither their results nor the
state they leave. -/
def Obligations.UnitOrderChangesNothing : Prop :=
  ∀ (c d : Recognised) (fn ts : Half) (s : State),
    seqStep c fn (timStep d ts s) = timStep d ts (seqStep c fn s) ∧
    nextDrop ((timStep d ts s).seq c) fn = nextDrop (s.seq c) fn ∧
    timingOk c ((seqStep d fn s).tim c) ts = timingOk c (s.tim c) ts

/-! ## Checksum Validator -/

/-- R81 (CHK): valid iff the sum of the four payload bytes and the checksum byte, modulo 256, is zero, in the two-stage
form and in the single-reduction form. -/
def Obligations.ChecksumIsTheModularByteSum : Prop :=
  ∀ (p : PayloadWord) (ck : Byte),
    (checksumOk p ck = true ↔
      u8 (u8 (p.toNat % 2 ^ 8 + p.toNat / 2 ^ 8 % 2 ^ 8 + p.toNat / 2 ^ 16 % 2 ^ 8 + p.toNat / 2 ^ 24) + ck.toNat) = 0) ∧
    (checksumOk p ck = true ↔
      u8 (p.toNat % 2 ^ 8 + p.toNat / 2 ^ 8 % 2 ^ 8 + p.toNat / 2 ^ 16 % 2 ^ 8 + p.toNat / 2 ^ 24 + ck.toNat) = 0)

/-- R82 (the spec's derivation): for each payload exactly one checksum is valid, the two's complement of the byte
sum. -/
def Obligations.ExactlyOneChecksumIsValid : Prop :=
  ∀ p : PayloadWord,
    (∃! ck, checksumOk p ck = true) ∧
    ∀ ck : Byte, checksumOk p ck = true ↔
      (ck.toNat : Int) =
        u8 (256 - u8 (p.toNat % 2 ^ 8 + p.toNat / 2 ^ 8 % 2 ^ 8 + p.toNat / 2 ^ 16 % 2 ^ 8 + p.toNat / 2 ^ 24))

/-! ## Sequence Tracker -/

/-- R91 (SEQ): in either category, the first frame since RESET sets the count to 0, and a later frame adds the 16-bit
gap modulo 65536; the frame number is remembered and the new count is what the record reports. -/
def Obligations.SequenceStepAddsTheGap : Prop :=
  ∀ (c : Recognised) (fn ts : Half) (p : PayloadWord) (ck : Byte) (s : State), ∃ t r,
    exec (procOf c fn ts p ck) s = .next t ∧ t.recPort = some r ∧
    (r.drop.toNat : Int) =
      (if (s.seq c).seen = false then 0
       else u16 ((s.seq c).drop.toNat + u16 ((fn.toNat : Int) - (s.seq c).lastFn.toNat - 1))) ∧
    t.seq c = ⟨fn, r.drop, true⟩

/-- R92 (the spec's derivation): the gap of a forward step, of a repeated frame number, and of a regression. -/
def Obligations.GapAtTheCorners : Prop :=
  ∀ (last : Half) (k : Nat),
    (k ≤ 65535 → (gap last (last + 1 + BitVec.ofNat 16 k)).toNat = k) ∧
    (gap last last).toNat = 65535 ∧
    (1 ≤ k → k ≤ 65535 → (gap last (last - BitVec.ofNat 16 k)).toNat = 65535 - k) ∧
    gap 65535 0 = 0

/-- R94 (the spec's derivation; 90_conflicts.md C3): for a later frame of a category, the count does not fall iff the sum
stays below 65536; a forward step with room adds its gap; a repeated frame number takes 1 from a nonzero count; and a
regression by `k` takes `k + 1` from a count of at least `k + 1`. -/
def Obligations.DropCountIsMonotonicOnlyWithoutAWrap : Prop :=
  ∀ (c : Recognised) (fn ts : Half) (p : PayloadWord) (ck : Byte) (s : State), (s.seq c).seen = true → ∃ t,
    exec (procOf c fn ts p ck) s = .next t ∧
    ((s.seq c).drop.toNat ≤ (t.seq c).drop.toNat ↔
      (s.seq c).drop.toNat + (gap (s.seq c).lastFn fn).toNat ≤ 65535) ∧
    (∀ k : Nat, k ≤ 65535 - (s.seq c).drop.toNat → fn = (s.seq c).lastFn + 1 + BitVec.ofNat 16 k →
      (t.seq c).drop.toNat = (s.seq c).drop.toNat + k) ∧
    (fn = (s.seq c).lastFn → 1 ≤ (s.seq c).drop.toNat → (t.seq c).drop.toNat + 1 = (s.seq c).drop.toNat) ∧
    (∀ k : Nat, 1 ≤ k → k + 1 ≤ (s.seq c).drop.toNat → fn = (s.seq c).lastFn - BitVec.ofNat 16 k →
      (t.seq c).drop.toNat + (k + 1) = (s.seq c).drop.toNat)

/-- 42_sequence.md R95 (decision D11): once a category has been seen, no step but RESET clears its count: it stays, or a
frame of the category adds its gap; a forward wrap 65535 to 0 adds nothing. -/
def Obligations.NothingButResetStartsACountAgain : Prop :=
  ∀ (c : Recognised) (s t : State), (s.seq c).seen = true → isReset s.currentOp = false → step s = .next t →
    (t.seq c).seen = true ∧
    (t.seq c).drop =
      (if isFrameOf c s.currentOp then (s.seq c).drop + gap (s.seq c).lastFn s.currentOp.frame.fn
       else (s.seq c).drop) ∧
    ((s.seq c).lastFn = 65535 → s.currentOp.frame.fn = 0 → (t.seq c).drop = (s.seq c).drop)

/-- R29, R96 and R104 (the spec's derivations of the last two): while `seen` is 0, the next frame of the category, after
any operations that are neither RESET nor a frame of it, reports drop 0 and on time, whatever its fields and the stale
tracker fields hold. -/
def Obligations.FirstFrameIsOnTimeWithNoDrop : Prop :=
  ∀ (c : Recognised) (s : State) (before : List OpPort) (p : OpPort),
    (s.seq c).seen = false → (s.tim c).seen = false →
    (∀ q ∈ before, keeps c q = false) → isFrameOf c p = true →
    ∃ r, recordsOf c (responsesTo (before ++ [p]) s) = [r] ∧ r.drop = 0 ∧ r.timingOk = true

/-! ## Timing Validator -/

/-- R26 and R101: the window table, its derived bounds, and that both bounds are inclusive. -/
def Obligations.WindowsAreTheClosedIntervals : Prop :=
  (∀ c, (lo c).toNat = (windowTable c).period.toNat - (windowTable c).margin.toNat ∧
    (hi c).toNat = (windowTable c).period.toNat + (windowTable c).margin.toNat) ∧
  windowTable .pos = ⟨25, 2⟩ ∧ windowTable .vel = ⟨50, 3⟩ ∧
  ∀ d : Half, (inWindow .pos d = true ↔ 23 ≤ d.toNat ∧ d.toNat ≤ 27) ∧
    (inWindow .vel d = true ↔ 47 ≤ d.toNat ∧ d.toNat ≤ 53)

/-- R102 (TIM): in either category, the first frame since RESET is on time, and a later frame is on time iff its 16-bit
delta lies in the category's closed window; the timestamp is remembered regardless of the outcome. -/
def Obligations.TimingStepComparesTheDelta : Prop :=
  ∀ (c : Recognised) (fn ts : Half) (p : PayloadWord) (ck : Byte) (s : State), ∃ t r,
    exec (procOf c fn ts p ck) s = .next t ∧ t.recPort = some r ∧
    (r.timingOk = true ↔
      (s.tim c).seen = false ∨
        ((lo c).toNat ≤ u16 ((ts.toNat : Int) - (s.tim c).lastTs.toNat) ∧
          u16 ((ts.toNat : Int) - (s.tim c).lastTs.toNat) ≤ (hi c).toNat)) ∧
    t.tim c = ⟨ts, true⟩

/-- R103 (the spec's derivation): forward steps are on time exactly inside the windows; backward steps are judged as
forward steps of 65536 less. -/
def Obligations.TimingAtTheCorners : Prop :=
  ∀ (last : Half) (k : Nat), k ≤ 65535 →
    (timingOk .pos ⟨last, true⟩ (last + BitVec.ofNat 16 k) = true ↔ 23 ≤ k ∧ k ≤ 27) ∧
    (timingOk .vel ⟨last, true⟩ (last + BitVec.ofNat 16 k) = true ↔ 47 ≤ k ∧ k ≤ 53) ∧
    (1 ≤ k → k ≤ 65482 → ∀ c, timingOk c ⟨last, true⟩ (last - BitVec.ofNat 16 k) = false) ∧
    (65509 ≤ k → k ≤ 65513 → timingOk .pos ⟨last, true⟩ (last - BitVec.ofNat 16 k) = true ∧
      timingOk .vel ⟨last, true⟩ (last - BitVec.ofNat 16 k) = false) ∧
    (65483 ≤ k → k ≤ 65489 → timingOk .pos ⟨last, true⟩ (last - BitVec.ofNat 16 k) = false ∧
      timingOk .vel ⟨last, true⟩ (last - BitVec.ofNat 16 k) = true)

/-- 70_reset_and_hazards.md R175 (decision D24): a frame sees every update of an earlier frame of its category, even in
the very next step, and operations between them that are neither RESET nor of the category change nothing. -/
def Obligations.NextFrameOfACategorySeesTheLastOne : Prop :=
  ∀ (c : Recognised) (s : State) (p q : OpPort) (between : List OpPort),
    isFrameOf c p = true → isFrameOf c q = true → (∀ x ∈ between, keeps c x = false) →
    ∃ r r', recordsOf c (responsesTo (p :: (between ++ [q])) s) = [r, r'] ∧
      (r'.drop.toNat : Int) = u16 (r.drop.toNat + u16 ((q.frame.fn.toNat : Int) - p.frame.fn.toNat - 1)) ∧
      (r'.timingOk = true ↔
        (lo c).toNat ≤ u16 ((q.frame.ts.toNat : Int) - p.frame.ts.toNat) ∧
          u16 ((q.frame.ts.toNat : Int) - p.frame.ts.toNat) ≤ (hi c).toNat)

/-! ## Payload Decoder -/

/-- R111 (decision D6), transcribed with exact rationals: `rne32` of 0 is 0; for `q` not 0, with `e` the integer with
`2^e <= |q| < 2^(e+1)`, the pattern is `{s, u8(e+127), M - 2^23}` of the rounded significand `M`; and for the decoder's
quotients `-10 <= e <= 9`. -/
def Obligations.RoundingFollowsTheSpecsPseudocode : Prop :=
  (∀ den : Nat, rne32 0 den = 0x00000000) ∧
  (∀ (num : Int) (den : Nat) (e : Int), num ≠ 0 → 0 < den →
    (2 : ℚ) ^ e ≤ |(num : ℚ) / den| → |(num : ℚ) / den| < (2 : ℚ) ^ (e + 1) →
    ∀ (m : ℚ) (M : Int), m = |(num : ℚ) / den| * (2 : ℚ) ^ (23 - e) →
      M = ⌊m⌋ + (if Int.fract m > 1 / 2 ∨ (Int.fract m = 1 / 2 ∧ ⌊m⌋ % 2 = 1) then 1 else 0) →
      ((rne32 num den).toNat : Int) =
        (if num < 0 then 2 ^ 31 else 0)
          + (if M = 2 ^ 24 then u8 (e + 1 + 127) * 2 ^ 23 else u8 (e + 127) * 2 ^ 23 + (M - 2 ^ 23))) ∧
  (∀ h : Half, (h ≠ 0 → (2 : ℚ) ^ (-10 : Int) ≤ (h.toNat : ℚ) / 100 ∧ (h.toNat : ℚ) / 100 < (2 : ℚ) ^ (10 : Int)) ∧
    (h ≠ 32767 → (2 : ℚ) ^ (-10 : Int) ≤ |(signedOffset h : ℚ) / 1000| ∧
      |(signedOffset h : ℚ) / 1000| < (2 : ℚ) ^ (10 : Int)))

/-- What R111 is for: over the whole normal range, `rne32` gives a finite pattern whose number is nearest to the exact
rational among all finite binary32 numbers, and has an even fraction where another number is as near. (The numbers of
patterns with biased exponent 0 or 255 are IEEE 754's: log 4.) -/
def Obligations.RoundingIsToNearestWithTiesToEven : Prop :=
  ∀ (num : Int) (den : Nat), 0 < den →
    (2 : ℚ) ^ (-126 : Int) ≤ |(num : ℚ) / den| → |(num : ℚ) / den| < (2 : ℚ) ^ (127 : Int) →
    floatFinite (rne32 num den) = true ∧
    ∀ x : FloatBits, floatFinite x = true →
      |floatValue (rne32 num den) - (num : ℚ) / den| ≤ |floatValue x - (num : ℚ) / den| ∧
      (floatValue x ≠ floatValue (rne32 num den) →
        |floatValue (rne32 num den) - (num : ℚ) / den| = |floatValue x - (num : ℚ) / den| →
        (floatFrac (rne32 num den)).toNat % 2 = 0)

/-- R112 (DEC_POS): the four fields of a Position record, from the payload's halves as integers, with the corner values
of the rule. -/
def Obligations.PositionPayloadDecodes : Prop :=
  (∀ p : PayloadWord,
    (decodePos p).posX = rne32 (p.toNat / 2 ^ 16) 100 ∧
    (decodePos p).posY = rne32 ((p.toNat % 2 ^ 16 : Int) - 32767) 1000 ∧
    (decodePos p).velX = 0x00000000 ∧ (decodePos p).velY = 0x00000000) ∧
  (∀ l : Half, (decodePos (0#16 ++ l)).posX = 0x00000000 ∧ (decodePos (65535#16 ++ l)).posX = 0x4423D666) ∧
  (∀ h : Half, (decodePos (h ++ 32767#16)).posY = 0x00000000 ∧ (decodePos (h ++ 0#16)).posY = 0xC2031168 ∧
    (decodePos (h ++ 65535#16)).posY = 0x4203126F)

/-- R113 (DEC_VEL): the four fields of a Velocity record, with the corner values of the rule. -/
def Obligations.VelocityPayloadDecodes : Prop :=
  (∀ p : PayloadWord,
    (decodeVel p).velX = rne32 ((p.toNat / 2 ^ 16 : Int) - 32767) 1000 ∧
    (decodeVel p).velY = rne32 ((p.toNat % 2 ^ 16 : Int) - 32767) 1000 ∧
    (decodeVel p).posX = 0x00000000 ∧ (decodeVel p).posY = 0x00000000) ∧
  (∀ l : Half, (decodeVel (0x7FFF#16 ++ l)).velX = 0x00000000 ∧ (decodeVel (0x0000#16 ++ l)).velX = 0xC2031168 ∧
    (decodeVel (0xFFFF#16 ++ l)).velX = 0x4203126F ∧ (decodeVel (0x8000#16 ++ l)).velX = 0x3A83126F) ∧
  (∀ h : Half, (decodeVel (h ++ 0x7FFF#16)).velY = 0x00000000 ∧ (decodeVel (h ++ 0x0000#16)).velY = 0xC2031168 ∧
    (decodeVel (h ++ 0xFFFF#16)).velY = 0x4203126F ∧ (decodeVel (h ++ 0x8000#16)).velY = 0x3A83126F)

/-- R120: each output field depends on one lane only, and both lanes are always decoded. -/
def Obligations.PayloadLanesAreIndependent : Prop :=
  ∀ (c : Recognised) (h h' l l' : Half),
    (decodePayload c (h ++ l)).posX = (decodePayload c (h ++ l')).posX ∧
    (decodePayload c (h ++ l)).velX = (decodePayload c (h ++ l')).velX ∧
    (decodePayload c (h ++ l)).posY = (decodePayload c (h' ++ l)).posY ∧
    (decodePayload c (h ++ l)).velY = (decodePayload c (h' ++ l)).velY ∧
    decodePayload .pos (h ++ l) = ⟨rne32 h.toNat 100, rne32 ((l.toNat : Int) - 32767) 1000, 0, 0⟩ ∧
    decodePayload .vel (h ++ l) =
      ⟨0, 0, rne32 ((h.toNat : Int) - 32767) 1000, rne32 ((l.toNat : Int) - 32767) 1000⟩

/-- R117 (the spec's derivation): every float output is finite, no output is a subnormal or -0, a result is zero only
where the rule says so, and every other result's magnitude lies between those of `rne32(1/1000)` and
`rne32(655.35)`. (The classes are IEEE 754's: log 4.) -/
def Obligations.FloatOutputsAreFiniteNormalOrPlusZero : Prop :=
  (∀ (c : Recognised) (p : PayloadWord) (x : FloatBits),
    x ∈ [(decodePayload c p).posX, (decodePayload c p).posY, (decodePayload c p).velX, (decodePayload c p).velY] →
    floatFinite x = true ∧ floatSubnormal x = false ∧ x ≠ 0x80000000 ∧
    (x ≠ 0 → floatValue 0x3A83126F ≤ |floatValue x| ∧ |floatValue x| ≤ floatValue 0x4423D666)) ∧
  (∀ p : PayloadWord,
    ((decodePos p).posX = 0 ↔ hiHalf p = 0) ∧ ((decodePos p).posY = 0 ↔ loHalf p = 32767) ∧
    ((decodeVel p).velX = 0 ↔ hiHalf p = 32767) ∧ ((decodeVel p).velY = 0 ↔ loHalf p = 32767))

/-- R118 (the spec's derivation): the range of each populated field, as the numbers of the bit patterns the table
gives. -/
def Obligations.FloatOutputsStayInTheirRanges : Prop :=
  ∀ p : PayloadWord,
    0 ≤ floatValue (decodePos p).posX ∧ floatValue (decodePos p).posX ≤ floatValue 0x4423D666 ∧
    floatValue 0xC2031168 ≤ floatValue (decodePos p).posY ∧ floatValue (decodePos p).posY ≤ floatValue 0x4203126F ∧
    floatValue 0xC2031168 ≤ floatValue (decodeVel p).velX ∧ floatValue (decodeVel p).velX ≤ floatValue 0x4203126F ∧
    floatValue 0xC2031168 ≤ floatValue (decodeVel p).velY ∧ floatValue (decodeVel p).velY ≤ floatValue 0x4203126F

/-- R116, first path (the spec's exhaustive computation): for every half, dividing in binary64 and rounding the quotient
to binary32 gives exactly the single rounding of R111. -/
def Obligations.DivisionThroughBinary64Agrees : Prop :=
  ∀ h : Half,
    divideThrough64 h.toNat 100 = rne32 h.toNat 100 ∧
    divideThrough64 (signedOffset h) 1000 = rne32 (signedOffset h) 1000

/-- R116, second path (the spec's derivation): the integer converted to binary32 is exact, and the correctly rounded
quotient of the two converted operands is R111's result. -/
def Obligations.DivisionInBinary32Agrees : Prop :=
  ∀ (num : Int) (den : Nat), |num| < 2 ^ 24 → 0 < den → den < 2 ^ 24 →
    floatValue (rne32 num 1) = num ∧ floatValue (rne32 den 1) = den ∧
    ∀ q : ℚ, q = floatValue (rne32 num 1) / floatValue (rne32 den 1) → rne32 q.num q.den = rne32 num den

/-! ## Streams -/

/-- R138 (the spec's derivation): for any operation stream, from any state, the records of category `c` are the same as
in the stream that keeps only the RESETs and the frames of category `c`. -/
def Obligations.CategoriesAreIsolatedOverAStream : Prop :=
  ∀ (c : Recognised) (ops : List OpPort) (s : State),
    recordsOf c (responsesTo ops s) = recordsOf c (responsesTo (ops.filter (keeps c)) s)

/-- R138 and 60_exceptions.md R156: with the Unknown frames and the IDLE steps removed, all records are the same, and so
are the trackers at the end: "the next operation executes exactly as if the skipped frame had never been presented". -/
def Obligations.UnknownFramesAndIdleStepsLeaveNoTrace : Prop :=
  ∀ (ops : List OpPort) (s : State), ∃ t t',
    recordsIn (responsesTo ops s) = recordsIn (responsesTo (ops.filter keepsAny) s) ∧
    outcomeOf ops s = .next t ∧ outcomeOf (ops.filter keepsAny) s = .next t' ∧ SameTrackers t t'

/-- 70_reset_and_hazards.md R176 (the spec's derivation): exchanging two neighbouring frames of different categories
anywhere in a stream changes neither category's records. -/
def Obligations.FramesOfDifferentCategoriesCommute : Prop :=
  ∀ (c d : Recognised) (xs ys : List OpPort) (p q : OpPort) (s : State),
    isFrameOf c p = true → isFrameOf (other c) q = true →
    recordsOf d (responsesTo (xs ++ p :: q :: ys) s) = recordsOf d (responsesTo (xs ++ q :: p :: ys) s)

/-- 70_reset_and_hazards.md R174, 10_state.md R34: a stream that begins with RESET gives the same responses and ends in
the same state from any two states: nothing of an earlier run is left. -/
def Obligations.ResetSeparatesRuns : Prop :=
  ∀ (p : OpPort) (ops : List OpPort) (s t : State), isReset p = true →
    responsesTo (p :: ops) s = responsesTo (p :: ops) t ∧ outcomeOf (p :: ops) s = outcomeOf (p :: ops) t

/-- 10_state.md R33, 70_reset_and_hazards.md R170: two states that differ only in fields of trackers whose `seen` flags
are 0 give the same responses to every stream. -/
def Obligations.StaleTrackerFieldsAreUnobservable : Prop :=
  ∀ (ops : List OpPort) (s t : State), Alike s t → responsesTo ops s = responsesTo ops t

/-! ## Invariants and size -/

/-- Every step keeps the invariant: the two `seen` flags of a category are equal (10_state.md R30), an unseen category
has its reset trackers, at most one response is presented (20_memory.md R44), and a presented record or diagnostic fits
the state (10_state.md R21, R22; 60_exceptions.md R151). -/
def Obligations.EveryStepKeepsTheInvariant : Prop :=
  ∀ s t : State, Inv s → step s = .next t → Inv t

/-- The invariant holds at reset, whatever stream the host then presents. -/
def Obligations.InvariantHoldsAtReset : Prop :=
  ∀ ops : List OpPort, Inv (State.reset.withStream ops)

/-- 10_state.md R31 (the spec's derivation): the tracker state is exactly 100 bits: its word determines the four
trackers, and every 100-bit word is the word of some state. (The order of the fields in the word is the model's: log
5.) -/
def Obligations.TrackerStateIsExactly100Bits : Prop :=
  (∀ s t : State, s.trackerWord = t.trackerWord → SameTrackers s t) ∧
  (∀ w : BitVec 100, ∃ s : State, s.trackerWord = w)
end

