-- ==== Sys2Proof/Laws/Decode.lean ====
section
/-! SUPPORT. What the decoder answers on each kind of operation, and the words' slices. -/

namespace Sys2Proof

open Machine

theorem categoryOf_pos_iff {w : Nat} (id : BitVec w) : categoryOf id = .pos ↔ id.toNat = 15 := by
  unfold categoryOf idPos idVel
  split
  · simp [*]
  · split <;> simp [*]

theorem categoryOf_vel_iff {w : Nat} (id : BitVec w) : categoryOf id = .vel ↔ id.toNat = 78 := by
  unfold categoryOf idPos idVel
  split
  · simp; omega
  · split <;> simp [*]

theorem categoryOf_unk_iff {w : Nat} (id : BitVec w) : categoryOf id = .unk ↔ id.toNat ≠ 15 ∧ id.toNat ≠ 78 := by
  unfold categoryOf idPos idVel
  split
  · simp [*]
  · split <;> simp [*]

@[simp] theorem categoryOf_identOf (c : Recognised) : categoryOf (identOf c) = c.category := by cases c <;> decide

/-- An identifier of a recognised category is that category's identifier. -/
theorem eq_identOf_of_categoryOf (c : Recognised) (id : Ident) (h : categoryOf id = c.category) : id = identOf c := by
  cases c
  · exact BitVec.eq_of_toNat_eq ((categoryOf_pos_iff id).1 h)
  · exact BitVec.eq_of_toNat_eq ((categoryOf_vel_iff id).1 h)

/-- What the operation port can select: RESET, IDLE, a frame of a recognised category, an Unknown frame. -/
theorem decode_cases (p : OpPort) :
    (p.rst = true ∧ decode p = .reset) ∨
    (p.rst = false ∧ p.opValid = false ∧ decode p = .idle) ∨
    (∃ c : Recognised, p.rst = false ∧ p.opValid = true ∧ categoryOf p.frame.id = c.category ∧
      decode p = procOf c p.frame.fn p.frame.ts p.frame.payload p.frame.ck) ∨
    (p.rst = false ∧ p.opValid = true ∧ categoryOf p.frame.id = .unk ∧
      decode p = .skipUnknown p.frame.id p.frame.fn p.frame.ts p.frame.payload p.frame.ck) := by
  unfold decode decodeFrame
  cases hr : p.rst with
  | true => exact .inl ⟨rfl, rfl⟩
  | false =>
    cases hv : p.opValid with
    | false => exact .inr (.inl ⟨rfl, rfl, rfl⟩)
    | true =>
      cases hc : categoryOf p.frame.id with
      | unk => exact .inr (.inr (.inr ⟨rfl, rfl, rfl, rfl⟩))
      | pos => exact .inr (.inr (.inl ⟨.pos, rfl, rfl, rfl, rfl⟩))
      | vel => exact .inr (.inr (.inl ⟨.vel, rfl, rfl, rfl, rfl⟩))

/-- Reading `w` bits of an appended pair below its lower part's width reads the lower part. -/
theorem extract_append_low {n m : Nat} (x : BitVec n) (y : BitVec m) (start len : Nat) (h : start + len ≤ m) :
    (x ++ y).extractLsb' start len = y.extractLsb' start len := by
  apply BitVec.eq_of_getLsbD_eq
  intro i hi
  have hlt : start + i < m := by omega
  simp [BitVec.getLsbD_append, hi, hlt]

/-- Reading bits of an appended pair at or above its lower part's width reads the upper part. -/
theorem extract_append_high {n m : Nat} (x : BitVec n) (y : BitVec m) (start len : Nat) :
    (x ++ y).extractLsb' (m + start) len = x.extractLsb' start len := by
  apply BitVec.eq_of_getLsbD_eq
  intro i hi
  have h1 : ¬ m + start + i < m := by omega
  have h2 : m + start + i - m = start + i := by omega
  simp [BitVec.getLsbD_append, hi, h1, h2]

/-- Two neighbouring slices, appended, are the slice they make up. -/
theorem extract_append_extract {n : Nat} (x : BitVec n) (start a b : Nat) :
    x.extractLsb' (start + b) a ++ x.extractLsb' start b = x.extractLsb' start (a + b) := by
  apply BitVec.eq_of_getLsbD_eq
  intro i hi
  rw [BitVec.getLsbD_append]
  by_cases h : i < b
  · simp [h, hi]
  · have h1 : i - b < a := by omega
    have h2 : start + b + (i - b) = start + i := by omega
    simp [h, hi, h1, h2]

/-- A one-bit slice as the bit it holds. -/
theorem ofBool_getLsbD {n : Nat} (x : BitVec n) (i : Nat) : BitVec.ofBool (x.getLsbD i) = x.extractLsb' i 1 := by
  apply BitVec.eq_of_getLsbD_eq
  intro j hj
  have : j = 0 := by omega
  subst this
  cases h : x.getLsbD i <;> simp [h]

/-- The value of an appended pair. -/
theorem toNat_append_eq {n m : Nat} (x : BitVec n) (y : BitVec m) :
    (x ++ y).toNat = x.toNat * 2 ^ m + y.toNat := by
  rw [BitVec.toNat_append, Nat.shiftLeft_eq, Nat.mul_comm, Nat.two_pow_add_eq_or_of_lt y.isLt]

/-- The value of a slice. -/
theorem toNat_extract_eq {n : Nat} (x : BitVec n) (start len : Nat) :
    (x.extractLsb' start len).toNat = x.toNat / 2 ^ start % 2 ^ len := by
  rw [BitVec.extractLsb'_toNat, Nat.shiftRight_eq_div_pow]

/-- Reading all bits reads the word. -/
theorem extract_all {n : Nat} (x : BitVec n) : x.extractLsb' 0 n = x := by
  simp

end Sys2Proof
end

