-- ==== Sys2Proof/Laws/Float.lean ====
section
/-! SUPPORT. What the rounding is made of, in exact rationals: one lemma per function, so that a proof about `rne32`
unfolds none of them. -/

namespace Sys2Proof.Machine

/-- `powLe` compares a power of two with the fraction. -/
theorem powLe_iff (k : Int) (n d : Nat) (hd : 0 < d) : powLe k n d = true ↔ (2 : ℚ) ^ k ≤ (n : ℚ) / d := by
  have hd' : (0 : ℚ) < d := by exact_mod_cast hd
  rw [powLe, decide_eq_true_iff, le_div_iff₀ hd']
  obtain ⟨a, rfl | rfl⟩ := k.eq_nat_or_neg
  · simp only [Int.toNat_natCast, Int.toNat_neg_natCast, pow_zero, mul_one, zpow_natCast]
    rw [mul_comm]
    exact_mod_cast Iff.rfl
  · simp only [neg_neg, Int.toNat_natCast, Int.toNat_neg_natCast, pow_zero, mul_one, zpow_neg, zpow_natCast]
    rw [inv_mul_le_iff₀ (by positivity), mul_comm ((2 : ℚ) ^ a)]
    exact_mod_cast Iff.rfl

/-- A natural number lies between the power of two of its `log2` and the next. -/
theorem log2_bounds (n : Nat) (hn : 0 < n) :
    (2 : ℚ) ^ (Nat.log2 n : Int) ≤ n ∧ (n : ℚ) < (2 : ℚ) ^ ((Nat.log2 n : Int) + 1) := by
  constructor
  · rw [zpow_natCast]
    exact_mod_cast Nat.log2_self_le hn.ne'
  · rw [← Nat.cast_succ, zpow_natCast]
    exact_mod_cast Nat.lt_log2_self

/-- `floorLog2` is the `e` of R111: `2^e <= n/d < 2^(e+1)`. -/
theorem floorLog2_spec (n d : Nat) (hn : 0 < n) (hd : 0 < d) :
    (2 : ℚ) ^ floorLog2 n d ≤ (n : ℚ) / d ∧ (n : ℚ) / d < (2 : ℚ) ^ (floorLog2 n d + 1) := by
  have hd' : (0 : ℚ) < d := by exact_mod_cast hd
  obtain ⟨n1, n2⟩ := log2_bounds n hn
  obtain ⟨d1, d2⟩ := log2_bounds d hd
  unfold floorLog2
  generalize ((Nat.log2 n : ℕ) : ℤ) = a at *
  generalize ((Nat.log2 d : ℕ) : ℤ) = b at *
  have upper : (n : ℚ) / d < (2 : ℚ) ^ (a - b + 1) := by
    rw [div_lt_iff₀ hd']
    calc (n : ℚ) < 2 ^ (a + 1) := n2
      _ = 2 ^ (a - b + 1) * 2 ^ b := by rw [← zpow_add₀ (by norm_num)]; congr 1; omega
      _ ≤ _ := by gcongr
  have lower : (2 : ℚ) ^ (a - b - 1) ≤ (n : ℚ) / d := by
    rw [le_div_iff₀ hd']
    calc _ ≤ (2 : ℚ) ^ (a - b - 1) * 2 ^ (b + 1) := by gcongr
      _ = 2 ^ a := by rw [← zpow_add₀ (by norm_num)]; congr 1; omega
      _ ≤ n := n1
  dsimp only
  split
  · next h => exact ⟨(powLe_iff _ _ _ hd).1 h, upper⟩
  · next h =>
    rw [powLe_iff _ _ _ hd, not_le] at h
    exact ⟨lower, by rwa [sub_add_cancel]⟩

/-- And it is the only one. -/
theorem floorLog2_unique (n d : Nat) (hn : 0 < n) (hd : 0 < d) (e : Int)
    (h1 : (2 : ℚ) ^ e ≤ (n : ℚ) / d) (h2 : (n : ℚ) / d < (2 : ℚ) ^ (e + 1)) : floorLog2 n d = e := by
  obtain ⟨a, b⟩ := floorLog2_spec n d hn hd
  have x := (zpow_lt_zpow_iff_right₀ (by norm_num : (1 : ℚ) < 2)).1 (h1.trans_lt b)
  have y := (zpow_lt_zpow_iff_right₀ (by norm_num : (1 : ℚ) < 2)).1 (a.trans_lt h2)
  omega

/-- Scaling a fraction by a power of two, on its numerator or its denominator. -/
theorem scaled_eq (n d : Nat) (k : Int) (hd : 0 < d) :
    ((n * 2 ^ k.toNat : Nat) : ℚ) / (d * 2 ^ (-k).toNat : Nat) = (n : ℚ) / d * 2 ^ k := by
  have hd' : (d : ℚ) ≠ 0 := by exact_mod_cast hd.ne'
  obtain ⟨a, rfl | rfl⟩ := k.eq_nat_or_neg
  · simp
    field_simp
  · simp
    field_simp

/-- The floor of a fraction of naturals is the natural quotient. -/
theorem floor_fraction (n d : Nat) : ⌊(n : ℚ) / d⌋ = ((n / d : ℕ) : ℤ) := by
  rw [← Rat.natFloor_natCast_div_natCast, Int.natCast_floor_eq_floor]
  positivity

/-- Its fractional part is the remainder over the denominator. -/
theorem fract_fraction (n d : Nat) (hd : 0 < d) : Int.fract ((n : ℚ) / d) = ((n % d : ℕ) : ℚ) / d := by
  have hd' : (d : ℚ) ≠ 0 := by exact_mod_cast hd.ne'
  have h : (n : ℚ) = d * (n / d : ℕ) + (n % d : ℕ) := by exact_mod_cast (Nat.div_add_mod n d).symm
  rw [Int.fract, floor_fraction, eq_div_iff hd', sub_mul, div_mul_cancel₀ _ hd', Int.cast_natCast]
  linarith

/-- `roundQuotient` is the `M` of R111 for the exact quotient `m`. -/
theorem roundQuotient_eq (n d : Nat) (hd : 0 < d) (m : ℚ) (hm : m = (n : ℚ) / d) :
    (roundQuotient n d : Int) =
      ⌊m⌋ + (if Int.fract m > 1 / 2 ∨ (Int.fract m = 1 / 2 ∧ ⌊m⌋ % 2 = 1) then 1 else 0) := by
  subst hm
  have hd' : (0 : ℚ) < d := by exact_mod_cast hd
  rw [floor_fraction, fract_fraction n d hd]
  have c1 : ((n % d : ℕ) : ℚ) / d > 1 / 2 ↔ d < 2 * (n % d) := by
    rw [gt_iff_lt, div_lt_div_iff₀ (by norm_num) hd']
    norm_cast
    omega
  have c2 : ((n % d : ℕ) : ℚ) / d = 1 / 2 ↔ 2 * (n % d) = d := by
    rw [div_eq_div_iff hd'.ne' (by norm_num)]
    norm_cast
    omega
  have c3 : (((n / d : ℕ) : ℤ) % 2 = 1) ↔ n / d % 2 = 1 := by omega
  simp only [c1, c2, c3]
  unfold roundQuotient
  dsimp only
  split <;> simp

/-- The exact significand lies in `[2^23, 2^24)` (R111). -/
theorem significand_bounds (n d : Nat) (hn : 0 < n) (hd : 0 < d) :
    (2 : ℚ) ^ 23 ≤ (n : ℚ) / d * 2 ^ (23 - floorLog2 n d) ∧ (n : ℚ) / d * 2 ^ (23 - floorLog2 n d) < (2 : ℚ) ^ 24 := by
  obtain ⟨a, b⟩ := floorLog2_spec n d hn hd
  generalize floorLog2 n d = e at *
  constructor
  · calc (2 : ℚ) ^ 23 = 2 ^ e * 2 ^ (23 - e) := by rw [← zpow_add₀ (by norm_num)]; norm_num
      _ ≤ _ := by gcongr
  · calc _ < (2 : ℚ) ^ (e + 1) * 2 ^ (23 - e) := by gcongr
      _ = _ := by
        rw [← zpow_add₀ (by norm_num), show e + 1 + (23 - e) = 24 by ring]
        norm_num

/-- The value of a packed pattern. -/
theorem packBinary32_toNat (s : Bool) (m : Nat) (e : Int) (h1 : 2 ^ 23 ≤ m) (h2 : m < 2 ^ 24) :
    ((packBinary32 s m e).toNat : Int) =
      (if s then 2 ^ 31 else 0) + (e + 127) % 256 * 2 ^ 23 + (m - 2 ^ 23) := by
  unfold packBinary32
  rw [toNat_append_eq, toNat_append_eq, BitVec.toNat_ofNat, BitVec.toNat_ofInt]
  have hs : (BitVec.ofBool s).toNat = if s then 1 else 0 := by cases s <;> rfl
  have h3 : (m - 2 ^ 23) % 2 ^ 23 = m - 2 ^ 23 := Nat.mod_eq_of_lt (by omega)
  have h4 : (((e + 127) % ((2 ^ 8 : Nat) : Int)).toNat : Int) = (e + 127) % 256 := by
    rw [Int.toNat_of_nonneg (Int.emod_nonneg _ (by norm_num))]
    rfl
  rw [hs, h3]
  generalize ((e + 127) % ((2 ^ 8 : Nat) : Int)).toNat = x at *
  cases s <;> simp only [if_true, Bool.false_eq_true, if_false] <;> omega

/-- The fields of a packed pattern (30_encoding.md R67). -/
theorem floatFrac_packBinary32 (s : Bool) (m : Nat) (e : Int) :
    floatFrac (packBinary32 s m e) = BitVec.ofNat 23 (m - 2 ^ 23) := by
  unfold floatFrac packBinary32
  exact (extract_append_low _ _ 0 23 (by omega)).trans (extract_all _)

theorem floatExp_packBinary32 (s : Bool) (m : Nat) (e : Int) :
    floatExp (packBinary32 s m e) = BitVec.ofInt 8 (e + 127) := by
  unfold floatExp packBinary32
  have h := extract_append_high (BitVec.ofBool s ++ BitVec.ofInt 8 (e + 127)) (BitVec.ofNat 23 (m - 2 ^ 23)) 0 8
  exact h.trans ((extract_append_low _ _ 0 8 (by omega)).trans (extract_all _))

theorem floatSign_packBinary32 (s : Bool) (m : Nat) (e : Int) : floatSign (packBinary32 s m e) = s := by
  unfold floatSign packBinary32
  rw [BitVec.getLsbD_append, BitVec.getLsbD_append]
  cases s <;> rfl

/-- The number a packed pattern of the normal range stands for. -/
theorem floatValue_packBinary32 (s : Bool) (m : Nat) (e : Int) (h1 : 2 ^ 23 ≤ m) (h2 : m < 2 ^ 24)
    (h3 : -126 ≤ e) (h4 : e ≤ 127) :
    floatValue (packBinary32 s m e) = (if s then -1 else 1) * ((m : ℚ) * (2 : ℚ) ^ (e - 23)) := by
  unfold floatValue
  rw [floatFrac_packBinary32, floatExp_packBinary32, floatSign_packBinary32]
  have hx : ((BitVec.ofInt 8 (e + 127)).toNat : Int) = e + 127 := by
    rw [BitVec.toNat_ofInt, Int.toNat_of_nonneg (Int.emod_nonneg _ (by norm_num))]
    exact Int.emod_eq_of_lt (by omega) (by norm_num; omega)
  have h0 : BitVec.ofInt 8 (e + 127) ≠ 0 := by
    intro h
    rw [h] at hx
    have : BitVec.toNat (0 : BitVec 8) = 0 := rfl
    omega
  have hm : (BitVec.ofNat 23 (m - 2 ^ 23)).toNat = m - 2 ^ 23 := by
    rw [BitVec.toNat_ofNat]
    exact Nat.mod_eq_of_lt (by omega)
  rw [if_neg h0, hm, hx, Nat.cast_sub h1]
  push_cast
  rw [show e + 127 - 150 = e - 23 by ring]
  ring

/-- Everything `rne32` can answer for a nonzero rational: a packed pattern with a significand in range, whose exponent
is `floorLog2` or, where the rounding carries out of the significand, one more. -/
theorem rne32_pack (num : Int) (den : Nat) (hn : num ≠ 0) (hd : 0 < den) :
    ∃ m e, rne32 num den = packBinary32 (decide (num < 0)) m e ∧ 2 ^ 23 ≤ m ∧ m < 2 ^ 24 ∧
      (e = floorLog2 num.natAbs den ∨ e = floorLog2 num.natAbs den + 1) := by
  have hn' : 0 < num.natAbs := Int.natAbs_pos.2 hn
  refine ⟨(roundSignificand 24 num.natAbs den).1, (roundSignificand 24 num.natAbs den).2, by simp [rne32, hn], ?_⟩
  obtain ⟨b1, b2⟩ := significand_bounds num.natAbs den hn' hd
  unfold roundSignificand
  generalize floorLog2 num.natAbs den = e at *
  dsimp only
  rw [show ((24 : ℕ) : ℤ) - 1 - e = 23 - e by norm_num]
  have hq := roundQuotient_eq (num.natAbs * 2 ^ (23 - e).toNat) (den * 2 ^ (-(23 - e)).toNat) (by positivity) _
    (scaled_eq _ _ _ hd).symm
  generalize (num.natAbs : ℚ) / den * 2 ^ (23 - e) = m at *
  have f1 : 2 ^ 23 ≤ ⌊m⌋ := by rw [Int.le_floor]; exact_mod_cast b1
  have f2 : ⌊m⌋ < 2 ^ 24 := by rw [Int.floor_lt]; exact_mod_cast b2
  generalize roundQuotient (num.natAbs * 2 ^ (23 - e).toNat) (den * 2 ^ (-(23 - e)).toNat) = r at *
  have h1 : 2 ^ 23 ≤ r ∧ r ≤ 2 ^ 24 := by split at hq <;> omega
  by_cases c : r = 2 ^ 24
  · rw [if_pos c]
    exact ⟨by norm_num, by norm_num, .inr rfl⟩
  · rw [if_neg c]
    exact ⟨h1.1, by dsimp only; omega, .inl rfl⟩

end Sys2Proof.Machine
end

