-- ==== Sys2Proof/Laws/PerInstr.lean ====
section
/-! SUPPORT. The per-instruction family RowMatch: what the encoder presents for a well-formed operation is what its row
of spec/opcode_table.json asks for: the control inputs, and `frame word &&& mask = match`. -/

namespace Sys2Proof.Laws

/-- A row of the opcode table: its control inputs (`none`: any) and its mask and match over FW88. -/
structure Row where
  rst : Bool
  opValid : Option Bool
  mask : BitVec 88
  value : BitVec 88

/-- The rows, as the table prints them. RESET and IDLE have no frame word: their mask is empty. -/
def rowOf : Instr → Row
  | .procPos _ _ _ _ => ⟨false, some true, 0xFFFF000000000000000000, 0x000F000000000000000000⟩
  | .procVel _ _ _ _ => ⟨false, some true, 0xFFFF000000000000000000, 0x004E000000000000000000⟩
  | .skipUnknown _ _ _ _ _ => ⟨false, some true, 0x0000000000000000000000, 0x0000000000000000000000⟩
  | .reset => ⟨true, none, 0, 0⟩
  | .idle => ⟨false, some false, 0, 0⟩

/-- What the encoder presents matches the row. -/
def RowMatch.Statement (i : Instr) : Prop :=
  i.WellFormed →
    (encode i).rst = (rowOf i).rst ∧ (∀ v, (rowOf i).opValid = some v → (encode i).opValid = v) ∧
    (encode i).frame.word &&& (rowOf i).mask = (rowOf i).value

/-- Masking a frame word with the identifier's mask keeps the identifier. -/
theorem word_and_identMask (f : Frame) :
    f.word &&& (0xFFFF000000000000000000 : BitVec 88)
      = f.id ++ (0 : Half) ++ (0 : Half) ++ (0 : PayloadWord) ++ (0 : Byte) := by
  have hm : (0xFFFF000000000000000000 : BitVec 88)
      = (0xFFFF : BitVec 16) ++ (0 : Half) ++ (0 : Half) ++ (0 : PayloadWord) ++ (0 : Byte) := by decide
  have hid : f.id &&& (0xFFFF : BitVec 16) = f.id := BitVec.and_allOnes
  have h0 : ∀ {n : Nat} (x : BitVec n), x &&& (0 : BitVec n) = 0 := fun _ => BitVec.and_zero
  rw [hm]
  unfold Frame.word frameWord
  rw [BitVec.and_append, BitVec.and_append, BitVec.and_append, BitVec.and_append, hid, h0, h0, h0, h0]

/-- A recognised category's identifier above a frame of zeros is its row's match word. -/
theorem ident_append (c : Recognised) :
    Machine.identOf c ++ (0 : Half) ++ (0 : Half) ++ (0 : PayloadWord) ++ (0 : Byte)
      = (match c with | .pos => 0x000F000000000000000000 | .vel => 0x004E000000000000000000 : BitVec 88) := by
  cases c <;> decide

theorem RowMatch.procPos (fn ts : Half) (payload : PayloadWord) (ck : Byte) :
    RowMatch.Statement (.procPos fn ts payload ck) := fun _ =>
  ⟨rfl, fun _ h => by cases h; rfl, (word_and_identMask _).trans (ident_append .pos)⟩

theorem RowMatch.procVel (fn ts : Half) (payload : PayloadWord) (ck : Byte) :
    RowMatch.Statement (.procVel fn ts payload ck) := fun _ =>
  ⟨rfl, fun _ h => by cases h; rfl, (word_and_identMask _).trans (ident_append .vel)⟩

theorem RowMatch.skipUnknown (id : Ident) (fn ts : Half) (payload : PayloadWord) (ck : Byte) :
    RowMatch.Statement (.skipUnknown id fn ts payload ck) := fun _ =>
  ⟨rfl, fun _ h => by cases h; rfl, BitVec.and_zero⟩

theorem RowMatch.reset : RowMatch.Statement .reset := by
  intro _
  refine ⟨rfl, fun v h => ?_, by decide⟩
  exact absurd h (by simp [rowOf])

theorem RowMatch.idle : RowMatch.Statement .idle := fun _ =>
  ⟨rfl, fun _ h => by cases h; rfl, by decide⟩

end Sys2Proof.Laws
end

