-- ==== Sys2Proof/Laws/State.lean ====
section
/-! SUPPORT. One lemma per field per update of the state, each true by definition, so that no proof unfolds a record
update. -/

namespace Sys2Proof.Machine

variable (s : State)

/-! ## The trackers through their accessors -/

@[simp] theorem seq_setSeq_same (c : Recognised) (q : SequenceState) : (s.setSeq c q).seq c = q := by cases c <;> rfl

@[simp] theorem seq_setSeq_other (c : Recognised) (q : SequenceState) :
    (s.setSeq c q).seq (other c) = s.seq (other c) := by cases c <;> rfl

@[simp] theorem tim_setTim_same (c : Recognised) (t : TimingState) : (s.setTim c t).tim c = t := by cases c <;> rfl

@[simp] theorem tim_setTim_other (c : Recognised) (t : TimingState) :
    (s.setTim c t).tim (other c) = s.tim (other c) := by cases c <;> rfl

@[simp] theorem tim_setSeq (c d : Recognised) (q : SequenceState) : (s.setSeq c q).tim d = s.tim d := by
  cases c <;> cases d <;> rfl

@[simp] theorem seq_setTim (c d : Recognised) (t : TimingState) : (s.setTim c t).seq d = s.seq d := by
  cases c <;> cases d <;> rfl

@[simp] theorem recPort_setSeq (c : Recognised) (q : SequenceState) : (s.setSeq c q).recPort = s.recPort := by
  cases c <;> rfl

@[simp] theorem diagPort_setSeq (c : Recognised) (q : SequenceState) : (s.setSeq c q).diagPort = s.diagPort := by
  cases c <;> rfl

@[simp] theorem opStream_setSeq (c : Recognised) (q : SequenceState) : (s.setSeq c q).opStream = s.opStream := by
  cases c <;> rfl

@[simp] theorem recPort_setTim (c : Recognised) (t : TimingState) : (s.setTim c t).recPort = s.recPort := by
  cases c <;> rfl

@[simp] theorem diagPort_setTim (c : Recognised) (t : TimingState) : (s.setTim c t).diagPort = s.diagPort := by
  cases c <;> rfl

@[simp] theorem opStream_setTim (c : Recognised) (t : TimingState) : (s.setTim c t).opStream = s.opStream := by
  cases c <;> rfl

/-! ## The trackers at reset -/

@[simp] theorem seq_clearTrackers (c : Recognised) : (clearTrackers s).seq c = .initial := by cases c <;> rfl

@[simp] theorem tim_clearTrackers (c : Recognised) : (clearTrackers s).tim c = .initial := by cases c <;> rfl

@[simp] theorem opStream_clearTrackers : (clearTrackers s).opStream = s.opStream := rfl

@[simp] theorem seq_reset (c : Recognised) : State.reset.seq c = .initial := by cases c <;> rfl

@[simp] theorem tim_reset (c : Recognised) : State.reset.tim c = .initial := by cases c <;> rfl

/-! ## The output ports -/

@[simp] theorem seq_presentRecord (r : OutputRecord) (c : Recognised) : (s.presentRecord r).seq c = s.seq c := by
  cases c <;> rfl

@[simp] theorem tim_presentRecord (r : OutputRecord) (c : Recognised) : (s.presentRecord r).tim c = s.tim c := by
  cases c <;> rfl

@[simp] theorem recPort_presentRecord (r : OutputRecord) : (s.presentRecord r).recPort = some r := rfl

@[simp] theorem diagPort_presentRecord (r : OutputRecord) : (s.presentRecord r).diagPort = none := rfl

@[simp] theorem opStream_presentRecord (r : OutputRecord) : (s.presentRecord r).opStream = s.opStream := rfl

@[simp] theorem seq_presentDiagnostic (d : Diagnostic) (c : Recognised) :
    (s.presentDiagnostic d).seq c = s.seq c := by cases c <;> rfl

@[simp] theorem tim_presentDiagnostic (d : Diagnostic) (c : Recognised) :
    (s.presentDiagnostic d).tim c = s.tim c := by cases c <;> rfl

@[simp] theorem recPort_presentDiagnostic (d : Diagnostic) : (s.presentDiagnostic d).recPort = none := rfl

@[simp] theorem diagPort_presentDiagnostic (d : Diagnostic) : (s.presentDiagnostic d).diagPort = some d := rfl

@[simp] theorem opStream_presentDiagnostic (d : Diagnostic) : (s.presentDiagnostic d).opStream = s.opStream := rfl

@[simp] theorem seq_presentNothing (c : Recognised) : s.presentNothing.seq c = s.seq c := by cases c <;> rfl

@[simp] theorem tim_presentNothing (c : Recognised) : s.presentNothing.tim c = s.tim c := by cases c <;> rfl

@[simp] theorem recPort_presentNothing : s.presentNothing.recPort = none := rfl

@[simp] theorem diagPort_presentNothing : s.presentNothing.diagPort = none := rfl

@[simp] theorem opStream_presentNothing : s.presentNothing.opStream = s.opStream := rfl

/-! ## The operation port -/

@[simp] theorem seq_takeOp (c : Recognised) : s.takeOp.seq c = s.seq c := by cases c <;> rfl

@[simp] theorem tim_takeOp (c : Recognised) : s.takeOp.tim c = s.tim c := by cases c <;> rfl

@[simp] theorem opStream_takeOp : s.takeOp.opStream = s.opStream.tail := rfl

@[simp] theorem currentOp_presentOp (p : OpPort) : (s.presentOp p).currentOp = p := rfl

@[simp] theorem takeOp_presentOp (p : OpPort) : (s.presentOp p).takeOp = s := rfl

@[simp] theorem seq_withStream (ops : List OpPort) (c : Recognised) : (s.withStream ops).seq c = s.seq c := by
  cases c <;> rfl

@[simp] theorem tim_withStream (ops : List OpPort) (c : Recognised) : (s.withStream ops).tim c = s.tim c := by
  cases c <;> rfl

@[simp] theorem recPort_withStream (ops : List OpPort) : (s.withStream ops).recPort = s.recPort := rfl

@[simp] theorem diagPort_withStream (ops : List OpPort) : (s.withStream ops).diagPort = s.diagPort := rfl

@[simp] theorem opStream_withStream (ops : List OpPort) : (s.withStream ops).opStream = ops := rfl

@[simp] theorem currentOp_withStream_cons (p : OpPort) (ops : List OpPort) :
    (s.withStream (p :: ops)).currentOp = p := rfl

@[simp] theorem takeOp_withStream_cons (p : OpPort) (ops : List OpPort) :
    (s.withStream (p :: ops)).takeOp = s.withStream ops := rfl

/-! ## Categories -/

@[simp] theorem other_ne (c : Recognised) : other c ≠ c := by cases c <;> simp [other]

theorem eq_or_eq_other (c d : Recognised) : d = c ∨ d = other c := by cases c <;> cases d <;> simp [other]

theorem catCode_injective (c d : Recognised) (h : catCode c.category = catCode d.category) : c = d := by
  revert h; cases c <;> cases d <;> decide

/-- Two states with the same trackers agree on every category, and the other way round. -/
theorem sameTrackers_iff (s t : State) : SameTrackers s t ↔ ∀ c, AgreeOn c s t := by
  constructor
  · rintro ⟨h1, h2, h3, h4⟩ c
    cases c
    · exact ⟨h1, h3⟩
    · exact ⟨h2, h4⟩
  · intro h
    exact ⟨(h .pos).1, (h .vel).1, (h .pos).2, (h .vel).2⟩

end Sys2Proof.Machine
end

