-- ==== Sys2Proof/Laws/Step.lean ====
section
/-! SUPPORT. What each operation does, once, through the accessors; the inversion lemma of a step; streams one
operation at a time. -/

namespace Sys2Proof.Machine

variable (c : Recognised) (f : Frame) (s : State)

/-! ## One frame of a recognised category -/

@[simp] theorem processFrame_seq_same :
    (processFrame c f s).seq c = ⟨f.fn, nextDrop (s.seq c) f.fn, true⟩ := by
  simp [processFrame, timStep, seqStep]

@[simp] theorem processFrame_seq_other : (processFrame c f s).seq (other c) = s.seq (other c) := by
  simp [processFrame, timStep, seqStep]

@[simp] theorem processFrame_tim_same : (processFrame c f s).tim c = ⟨f.ts, true⟩ := by
  simp [processFrame, timStep]

@[simp] theorem processFrame_tim_other : (processFrame c f s).tim (other c) = s.tim (other c) := by
  simp [processFrame, timStep, seqStep]

@[simp] theorem processFrame_recPort : (processFrame c f s).recPort = some (assembleRecord c f s) := rfl

@[simp] theorem processFrame_diagPort : (processFrame c f s).diagPort = none := rfl

@[simp] theorem processFrame_opStream : (processFrame c f s).opStream = s.opStream := by
  simp [processFrame, timStep, seqStep]

/-- Processing a frame does not look at the host's stream. -/
theorem processFrame_withStream (ops : List OpPort) :
    processFrame c f (s.withStream ops) = (processFrame c f s).withStream ops := by
  cases c <;> rfl

/-- The record depends on the state only through the category's own trackers. -/
theorem assembleRecord_congr (s t : State) (hq : s.seq c = t.seq c) (ht : s.tim c = t.tim c) :
    assembleRecord c f s = assembleRecord c f t := by
  simp [assembleRecord, hq, ht]

/-! ## What exec answers -/

theorem exec_procOf (fn ts : Half) (p : PayloadWord) (ck : Byte) :
    exec (procOf c fn ts p ck) s = .next (processFrame c ⟨identOf c, fn, ts, p, ck⟩ s) := by
  cases c <;> rfl

theorem exec_skipUnknown (id : Ident) (fn ts : Half) (p : PayloadWord) (ck : Byte) :
    exec (.skipUnknown id fn ts p ck) s = .next (s.presentDiagnostic ⟨diagUnknownId, id⟩) := rfl

theorem exec_reset : exec .reset s = .next (clearTrackers s).presentNothing := rfl

theorem exec_idle : exec .idle s = .next s.presentNothing := rfl

/-! ## What a step answers -/

/-- The state a step answers. -/
def nextState (p : OpPort) (s : State) : State :=
  if p.rst then (clearTrackers s).presentNothing
  else if p.opValid then
    match categoryOf p.frame.id with
    | .pos => processFrame .pos p.frame s
    | .vel => processFrame .vel p.frame s
    | .unk => s.presentDiagnostic ⟨diagUnknownId, p.frame.id⟩
  else s.presentNothing

/-- Everything executing a decoded operation can do, in one place. -/
theorem exec_decode (p : OpPort) : exec (decode p) s = .next (nextState p s) := by
  unfold nextState
  rcases decode_cases p with ⟨hr, hd⟩ | ⟨hr, hv, hd⟩ | ⟨c, hr, hv, hc, hd⟩ | ⟨hr, hv, hc, hd⟩
  · simp [hd, hr, exec_reset]
  · simp [hd, hr, hv, exec_idle]
  · have hid : p.frame = ⟨identOf c, p.frame.fn, p.frame.ts, p.frame.payload, p.frame.ck⟩ := by
      rw [← eq_identOf_of_categoryOf c _ hc]
    rw [hd, exec_procOf, ← hid]
    cases c <;> simp only [Recognised.category] at hc <;> simp [hr, hv, hc]
  · simp [hd, hr, hv, hc, exec_skipUnknown]

theorem step_eq : step s = .next (nextState s.currentOp s.takeOp) := exec_decode _ _

@[simp] theorem step_withStream_cons (p : OpPort) (ops : List OpPort) :
    step (s.withStream (p :: ops)) = .next (nextState p (s.withStream ops)) := step_eq _

/-- The four things an operation can do to a state. -/
theorem nextState_cases (p : OpPort) :
    (isReset p = true ∧ nextState p s = (clearTrackers s).presentNothing) ∨
    (isReset p = false ∧ p.opValid = false ∧ nextState p s = s.presentNothing) ∨
    (∃ c, isFrameOf c p = true ∧ categoryOf p.frame.id = c.category ∧ nextState p s = processFrame c p.frame s) ∨
    (isUnknownFrame p = true ∧ categoryOf p.frame.id = .unk ∧
      nextState p s = s.presentDiagnostic ⟨diagUnknownId, p.frame.id⟩) := by
  unfold nextState isReset isFrameOf isUnknownFrame
  cases hr : p.rst with
  | true => exact .inl ⟨rfl, rfl⟩
  | false =>
    cases hv : p.opValid with
    | false => exact .inr (.inl ⟨rfl, rfl, rfl⟩)
    | true =>
      cases hc : categoryOf p.frame.id with
      | unk => exact .inr (.inr (.inr ⟨rfl, rfl, rfl⟩))
      | pos => exact .inr (.inr (.inl ⟨.pos, rfl, rfl, rfl⟩))
      | vel => exact .inr (.inr (.inl ⟨.vel, rfl, rfl, rfl⟩))

/-- The next state does not depend on what the host presents later. -/
theorem nextState_withStream (p : OpPort) (ops : List OpPort) :
    nextState p (s.withStream ops) = (nextState p s).withStream ops := by
  rcases nextState_cases s p with ⟨h, h'⟩ | ⟨h, hv, h'⟩ | ⟨c, h, hc, h'⟩ | ⟨h, hc, h'⟩ <;>
    rcases nextState_cases (s.withStream ops) p with ⟨k, k'⟩ | ⟨k, kv, k'⟩ | ⟨d, k, kc, k'⟩ | ⟨k, kc, k'⟩ <;>
    simp_all [isReset, isFrameOf, isUnknownFrame]
  · rfl
  · rfl
  · have : c = d := by cases c <;> cases d <;> simp_all [Recognised.category]
    subst this; exact processFrame_withStream _ _ _ _
  · cases c <;> simp_all [Recognised.category]
  · cases d <;> simp_all [Recognised.category]
  · rfl

@[simp] theorem nextState_opStream (p : OpPort) : (nextState p s).opStream = s.opStream := by
  rcases nextState_cases s p with ⟨h, h'⟩ | ⟨h, hv, h'⟩ | ⟨c, h, hc, h'⟩ | ⟨h, hc, h'⟩ <;> simp [h']

/-- An operation that is neither RESET nor a frame of the category leaves the category's trackers. -/
theorem nextState_agreeOn (p : OpPort) (h : keeps c p = false) : AgreeOn c (nextState p s) s := by
  simp only [keeps, Bool.or_eq_false_iff] at h
  rcases nextState_cases s p with ⟨k, h'⟩ | ⟨k, hv, h'⟩ | ⟨d, k, hc, h'⟩ | ⟨k, hc, h'⟩
  · simp_all
  · simp [h', AgreeOn]
  · rcases eq_or_eq_other d c with e | e
    · subst e; simp_all
    · subst e; simp [h', AgreeOn]
  · simp [h', AgreeOn]

/-! ## Streams, one operation at a time -/

/-- The state after a whole stream. -/
def stateAfter : List OpPort → State → State
  | [], s => s
  | p :: ops, s => stateAfter ops (nextState p s)

@[simp] theorem responsesTo_nil : responsesTo [] s = [] := rfl

theorem withStream_withStream (xs ys : List OpPort) : (s.withStream xs).withStream ys = s.withStream ys := rfl

@[simp] theorem responsesTo_cons (p : OpPort) (ops : List OpPort) :
    responsesTo (p :: ops) s
      = ((nextState p s).recPort, (nextState p s).diagPort) :: responsesTo ops (nextState p s) := by
  simp [responsesTo, responses, nextState_withStream]

theorem outcomeOf_nil : outcomeOf [] s = .next (s.withStream []) := rfl

@[simp] theorem outcomeOf_cons (p : OpPort) (ops : List OpPort) :
    outcomeOf (p :: ops) s = outcomeOf ops (nextState p s) := by
  have h : Sys2Proof.core.step (s.withStream (p :: ops)) = .next (nextState p (s.withStream ops)) := step_eq _
  rw [nextState_withStream] at h
  simp only [outcomeOf, List.length_cons, Host.Core.run, h]
  rfl

/-- Every stream runs to its end. -/
theorem outcomeOf_eq (ops : List OpPort) : outcomeOf ops s = .next ((stateAfter ops s).withStream []) := by
  induction ops generalizing s with
  | nil => rfl
  | cons p ops ih => simp [ih, stateAfter]

/-! ## One category's records -/

/-- A frame of category `c` is what the operation is. -/
theorem nextState_frameOf (p : OpPort) (h : isFrameOf c p = true) : nextState p s = processFrame c p.frame s := by
  rcases nextState_cases s p with ⟨k, k'⟩ | ⟨k, hv, k'⟩ | ⟨d, k, hc, k'⟩ | ⟨k, hc, k'⟩
  · simp_all [isFrameOf, isReset]
  · simp_all [isFrameOf]
  · have : d = c := by cases d <;> cases c <;> simp_all [isFrameOf, Recognised.category]
    rw [k', this]
  · exfalso; cases c <;> simp_all [isFrameOf, Recognised.category]

/-- An operation that is neither RESET nor a frame of `c` adds no record of `c`. -/
theorem recordsOf_cons_skip (p : OpPort) (ops : List OpPort) (h : keeps c p = false) :
    recordsOf c (responsesTo (p :: ops) s) = recordsOf c (responsesTo ops (nextState p s)) := by
  rw [responsesTo_cons]
  simp only [keeps, Bool.or_eq_false_iff] at h
  rcases nextState_cases s p with ⟨k, h'⟩ | ⟨k, hv, h'⟩ | ⟨d, k, hc, h'⟩ | ⟨k, hc, h'⟩
  · simp_all
  · simp [h', recordsOf, recordsIn]
  · rcases eq_or_eq_other d c with e | e
    · subst e; simp_all
    · have : (catCode d.category == catCode c.category) = false := by subst e; cases d <;> rfl
      simp [h', recordsOf, recordsIn, assembleRecord, this]
  · simp [h', recordsOf, recordsIn]

/-- A frame of `c` adds its record. -/
theorem recordsOf_cons_frame (p : OpPort) (ops : List OpPort) (h : isFrameOf c p = true) :
    recordsOf c (responsesTo (p :: ops) s)
      = assembleRecord c p.frame s :: recordsOf c (responsesTo ops (processFrame c p.frame s)) := by
  rw [responsesTo_cons, nextState_frameOf c s p h]
  simp [recordsOf, recordsIn, assembleRecord]

/-- Any number of operations that are neither RESET nor a frame of `c` leave the trackers of `c` and add no record of
`c`. -/
theorem recordsOf_append_skip (before rest : List OpPort) (h : ∀ q ∈ before, keeps c q = false) :
    ∃ t, AgreeOn c t s ∧ recordsOf c (responsesTo (before ++ rest) s) = recordsOf c (responsesTo rest t) := by
  induction before generalizing s with
  | nil => exact ⟨s, ⟨rfl, rfl⟩, rfl⟩
  | cons p xs ih =>
    obtain ⟨t, ht, e⟩ := ih (nextState p s) (fun q hq => h q (by simp [hq]))
    have hp := h p (by simp)
    have a := nextState_agreeOn c s p hp
    refine ⟨t, ⟨ht.1.trans a.1, ht.2.trans a.2⟩, ?_⟩
    rw [List.cons_append, recordsOf_cons_skip _ _ _ _ hp, e]

/-! ## The units' values as integers -/

/-- The count after a frame: 0 at the first, else the sum modulo 65536 of the count and the gap modulo 65536. -/
theorem nextDrop_toNat (q : SequenceState) (fn : Half) :
    ((nextDrop q fn).toNat : Int) =
      (if q.seen = false then 0 else u16 (q.drop.toNat + u16 ((fn.toNat : Int) - q.lastFn.toNat - 1))) := by
  unfold nextDrop gap u16
  have := fn.isLt
  have := q.lastFn.isLt
  have := q.drop.isLt
  cases q.seen
  · rfl
  · simp only [if_true, Bool.true_eq_false, if_false, BitVec.toNat_add, BitVec.toNat_sub]
    have h1 : BitVec.toNat (1 : Half) = 1 := rfl
    rw [h1]
    omega

/-- On time: at the first frame, else iff the delta modulo 65536 is in the closed window. -/
theorem timingOk_iff (t : TimingState) (ts : Half) :
    timingOk c t ts = true ↔
      t.seen = false ∨
        ((lo c).toNat ≤ u16 ((ts.toNat : Int) - t.lastTs.toNat) ∧
          u16 ((ts.toNat : Int) - t.lastTs.toNat) ≤ (hi c).toNat) := by
  unfold timingOk inWindow delta u16
  have := ts.isLt
  have := t.lastTs.isLt
  cases t.seen <;> simp [BitVec.le_def]
  omega

/-- Valid iff the four bytes and the checksum sum to a multiple of 256. -/
theorem checksumOk_iff (p : PayloadWord) (ck : Byte) :
    checksumOk p ck = true ↔
      ((byte0 p).toNat + (byte1 p).toNat + (byte2 p).toNat + (byte3 p).toNat + ck.toNat) % 256 = 0 := by
  unfold checksumOk byteSum
  rw [beq_iff_eq, ← BitVec.toNat_inj]
  simp only [BitVec.toNat_add]
  have h0 : BitVec.toNat (0 : Byte) = 0 := rfl
  rw [h0]
  omega

end Sys2Proof.Machine
end

