-- ==== Sys2Proof/Tests/Slice0.lean ====
section
/-! SUPPORT. The model's own tests, each expected result taken from the spec's words or its tables (95_test_vectors.md),
and for every statement with hypotheses a witness that meets them all. -/

namespace Sys2Proof.Tests

open Sys2Proof Sys2Proof.Machine

/-! ## WellFormed smoke: an ill-formed term for each check -/

/-- An identifier of 15 never selects SKIP_UNKNOWN (R133). -/
theorem test_skipUnknown_of_15_refused : ¬ (Instr.skipUnknown 15 0 0 0 0).WellFormed := by decide

/-- An identifier of 78 never selects SKIP_UNKNOWN (R133). -/
theorem test_skipUnknown_of_78_refused : ¬ (Instr.skipUnknown 78 0 0 0 0).WellFormed := by decide

/-! ## Decoding: words written out from the encodings (R60, R64; O-table; programs P1 and P2) -/

/-- `0000000000001111` then fn, ts, payload, ck: P1 step 4. -/
theorem test_decode_procPos :
    decode (.ofFrame (Frame.ofWord (0x000F_0004_041F_12345678_00#88))) = .procPos 4 1055 0x12345678 0x00 := by decide

/-- `0000000001001110` then fn, ts, payload, ck: P2 step 5. -/
theorem test_decode_procVel :
    decode (.ofFrame (Frame.ofWord (0x004E_000B_0226_83E77FFF_18#88))) = .procVel 11 550 0x83E77FFF 0x18 := by decide

/-- Identifier 21 is `0x0015`: 15 is decimal (decision D7). -/
theorem test_decode_skipUnknown :
    decodeTableWord 88 0x0015_0001_0002_00000003_04 = some (.skipUnknown 21 1 2 3 4) := by decide

/-- `rst` = 1 wins over a frame (R137), here through the 90-bit port word. -/
theorem test_decode_reset : decodeTableWord 96 0x3_000F_0000_0000_00000000_00 = some .reset := by decide

/-- `rst` = 0 and `op_valid` = 0 is IDLE whatever the identifier says (R64). -/
theorem test_decode_idle : decode ⟨false, false, ⟨78, 1, 2, 3, 4⟩⟩ = .idle := by decide

/-- A table word with a bit above the operation port is refused by name. -/
theorem test_decode_no_such_port_bit : decodeTableWord 96 (2 ^ 95) = none := by decide

/-- R71's example. -/
theorem test_assemble_frame :
    (AsmLine.frame 15 1 1000 0x0000FFFF 0x02).assemble.frame.word = 0x000F_0001_03E8_0000FFFF_02#88 := by decide

/-! ## One step each -/

/-- A state whose Position trackers are P1's before its step 4, and whose Velocity trackers are P2's before its step
7. -/
def sample : State :=
  { State.reset with
    seqPos := ⟨2, 0, true⟩, timPos := ⟨1025, true⟩, seqVel := ⟨11, 0, true⟩, timVel := ⟨550, true⟩ }

/-- The record of one operation from a state. -/
def recordOf (i : Instr) (s : State) : Option OutputRecord :=
  match exec i s with
  | .next t => t.recPort
  | .fault _ => none
  | .refused _ => none

/-- P1 step 4: a gap, a late frame and a bad checksum in one record. -/
theorem test_procPos_P1_step4 :
    recordOf (.procPos 4 1055 0x12345678 0x00) sample
      = some ⟨15, 0b01, 4, 1055, 0x423A6666, 0xC12A1893, 0, 0, false, false, 1⟩ := by decide

/-- S8: a repeated frame number takes 1 from the count, 5 to 4. -/
theorem test_procPos_repeated_frame_number :
    (recordOf (.procPos 10 0 0 0) { sample with seqPos := ⟨10, 5, true⟩ }).map (·.drop) = some 4 := by decide

/-- P2 step 7: the lower edge of the window, and -0.001 and 0.002. -/
theorem test_procVel_P2_step7 :
    recordOf (.procVel 14 597 0x7FFE8001 0x02) sample
      = some ⟨78, 0b10, 14, 597, 0, 0, 0xBA83126F, 0x3B03126F, true, true, 2⟩ := by decide

/-- T18 and the half `0x8000`: the timestamp wraps on time, and `vel_x` is +0.001. -/
theorem test_procVel_wraps :
    (recordOf (.procVel 12 14 0x80007FFF 0) { sample with timVel := ⟨65500, true⟩ }).map (fun r => (r.timingOk, r.velX))
      = some (true, 0x3A83126F) := by decide

/-- E9: identifier 99 presents `Diag(0x01, 99)` and changes no tracker. -/
theorem test_skipUnknown :
    exec (.skipUnknown 99 7 7 0xDEADBEEF 0x00) sample = .next { sample with diagPort := some ⟨0x01, 99⟩ } := rfl

/-- R1: RESET from a mid-run state leaves the reset state. -/
theorem test_reset : exec .reset sample = .next State.reset := rfl

/-- R3: IDLE changes no tracker, and withdraws the response of the step before. -/
theorem test_idle : exec .idle { sample with diagPort := some ⟨0x01, 99⟩ } = .next sample := rfl

/-- The row of the P-table where multiplying by a rounded reciprocal would give `0x3D4CCCCC` (R116). -/
theorem test_divide_not_multiply : rne32 5 100 = 0x3D4CCCCD := by decide

/-! ## Witnesses: each statement's hypotheses are met -/

theorem witness_DecodeOfEncodeIsTheInstruction : (Instr.skipUnknown 0x010F 1 2 3 4).WellFormed := by decide

theorem witness_EncodingHoldsForEveryIdentifierWidth : 7 ≤ 7 ∧ categoryOf (78#7) = .vel ∧ categoryOf (15#7) = .pos := by
  decide

theorem witness_AssemblerLinesPresentTheirOperations :
    65535 < 2 ^ 16 ∧ 0 < 2 ^ 16 ∧ 65535 < 2 ^ 16 ∧ 0xFFFFFFFF < 2 ^ 32 ∧ 255 < 2 ^ 8 := by decide

theorem witness_StepExecutesTheSelectedOperation :
    (sample.withStream [.nothing]).opStream = .nothing :: [] ∧ (Instr.skipUnknown 77 0 0 0 0).WellFormed ∧
    sample.opStream = [] := by decide

theorem witness_PresentedTableWordIsExecuted :
    decodeTableWord 88 (0x004E * 2 ^ 72) = some (.procVel 0 0 0 0) ∧ decodeTableWord 0 0 = some .idle ∧
    decodeTableWord 90 (2 ^ 89) = some .reset := by decide

theorem witness_ProcPosUpdatesPositionAndEmitsItsRecord :
    (0x000F_FFFF_FFF5_00010001_FE#88).extractLsb' 72 16 = 0x000F := by decide

theorem witness_ProcVelUpdatesVelocityAndEmitsItsRecord :
    (0x004E_000F_028B_00000000_01#88).extractLsb' 72 16 = 0x004E := by decide

theorem witness_SkipUnknownOnlyPresentsItsDiagnostic :
    (14 : Ident).toNat ≠ 15 ∧ (14 : Ident).toNat ≠ 78 ∧ (0x010F : Ident).toNat ≠ 15 ∧ (0x010F : Ident).toNat ≠ 78 := by
  decide

theorem witness_TrackersHoldWhileTheHostIsIdle : sample.opStream = [] := rfl

/-- Two states that agree on Position and differ on Velocity. -/
theorem witness_FrameOfOneCategoryNeverTouchesTheOther :
    AgreeOn .pos sample { sample with seqVel := .initial } ∧ sample ≠ { sample with seqVel := .initial } ∧
    (∃ t, exec (procOf .pos 1 2 3 4) sample = .next t) ∧
    ∃ t, exec (procOf .pos 1 2 3 4) { sample with seqVel := .initial } = .next t :=
  ⟨⟨rfl, rfl⟩, by decide, ⟨_, rfl⟩, ⟨_, rfl⟩⟩

/-- A Velocity frame does not keep to Position. -/
theorem witness_TrackersAreWrittenOnlyByResetAndTheirOwnFrames :
    (∃ t, step (sample.presentOp (encode (.procVel 1 2 3 4))) = .next t) ∧
    keeps .pos (sample.presentOp (encode (.procVel 1 2 3 4))).currentOp = false := ⟨⟨_, rfl⟩, by decide⟩

theorem witness_GapAtTheCorners :
    (gap 7 (7 + 1 + BitVec.ofNat 16 65535)).toNat = 65535 ∧ (gap 7 (7 - BitVec.ofNat 16 1)).toNat = 65534 ∧
    (gap 7 (7 - BitVec.ofNat 16 65535)).toNat = 0 := by decide

/-- At a count of 5: the largest forward step with room (65530), a repeat, and the largest regression that only lowers
the count (4). -/
theorem witness_DropCountIsMonotonicOnlyWithoutAWrap :
    nextDrop ⟨10, 5, true⟩ (10 + 1 + BitVec.ofNat 16 65530) = 65535 ∧ nextDrop ⟨10, 5, true⟩ 10 = 4 ∧
    nextDrop ⟨10, 5, true⟩ (10 - BitVec.ofNat 16 4) = 0 ∧ 4 + 1 ≤ (5 : Half).toNat ∧ 65530 ≤ 65535 - (5 : Half).toNat ∧
    (({ sample with seqPos := ⟨10, 5, true⟩ } : State).seq .pos).seen = true := by decide

/-- S6: the forward wrap 65535 to 0. -/
theorem witness_NothingButResetStartsACountAgain :
    (({ sample with seqPos := ⟨65535, 5, true⟩ } : State).seq .pos).seen = true ∧
    (({ sample with seqPos := ⟨65535, 5, true⟩ } : State).seq .pos).lastFn = 65535 ∧
    isReset (encode (.procPos 0 0 0 0)) = false ∧ (encode (.procPos 0 0 0 0)).frame.fn = 0 ∧
    ∃ t, step (({ sample with seqPos := ⟨65535, 5, true⟩ } : State).presentOp (encode (.procPos 0 0 0 0))) = .next t :=
  ⟨rfl, rfl, rfl, rfl, ⟨_, rfl⟩⟩

/-- Before the first Position frame: a Velocity frame, an Unknown frame and an IDLE step. -/
theorem witness_FirstFrameIsOnTimeWithNoDrop :
    (State.reset.seq .pos).seen = false ∧ (State.reset.tim .pos).seen = false ∧
    (∀ q ∈ [encode (.procVel 1 2 3 4), encode (.skipUnknown 99 7 7 0 0), encode .idle], keeps .pos q = false) ∧
    isFrameOf .pos (encode (.procPos 40000 12345 0 0)) = true := by decide

theorem witness_TimingAtTheCorners :
    timingOk .pos ⟨1000, true⟩ (1000 + BitVec.ofNat 16 23) = true ∧
    timingOk .vel ⟨1000, true⟩ (1000 + BitVec.ofNat 16 53) = true ∧
    timingOk .vel ⟨1000, true⟩ (1000 - BitVec.ofNat 16 65482) = false ∧
    timingOk .vel ⟨1000, true⟩ (1000 - BitVec.ofNat 16 65483) = true ∧
    timingOk .vel ⟨1000, true⟩ (1000 - BitVec.ofNat 16 65489) = true ∧
    timingOk .pos ⟨1000, true⟩ (1000 - BitVec.ofNat 16 65509) = true ∧
    timingOk .pos ⟨1000, true⟩ (1000 - BitVec.ofNat 16 65513) = true := by decide

theorem witness_NextFrameOfACategorySeesTheLastOne :
    isFrameOf .vel (encode (.procVel 10 500 0 0)) = true ∧ isFrameOf .vel (encode (.procVel 11 550 0 0)) = true ∧
    ∀ x ∈ [encode (.procPos 1 0 0 0), encode (.skipUnknown 99 7 7 0 0)], keeps .vel x = false := by decide

/-- `q = -1`, `e = 0`; and two halves at the clauses' boundaries. -/
theorem witness_RoundingFollowsTheSpecsPseudocode :
    (-1 : Int) ≠ 0 ∧ 0 < 1 ∧ (2 : ℚ) ^ (0 : Int) ≤ |((-1 : Int) : ℚ) / (1 : Nat)| ∧
    |((-1 : Int) : ℚ) / (1 : Nat)| < (2 : ℚ) ^ ((0 : Int) + 1) ∧ (1 : Half) ≠ 0 ∧ (32766 : Half) ≠ 32767 := by
  refine ⟨by decide, by decide, by norm_num, by norm_num, by decide, by decide⟩

/-- `q = 2^-126`, the smallest magnitude of the range, and another finite pattern to compare with. -/
theorem witness_RoundingIsToNearestWithTiesToEven :
    0 < 2 ^ 126 ∧ (2 : ℚ) ^ (-126 : Int) ≤ |((1 : Int) : ℚ) / ((2 ^ 126 : Nat) : ℚ)| ∧
    |((1 : Int) : ℚ) / ((2 ^ 126 : Nat) : ℚ)| < (2 : ℚ) ^ (127 : Int) ∧
    floatFinite 0x00000001 = true ∧ rne32 1 (2 ^ 126) = 0x00800000 := by
  refine ⟨by norm_num, by norm_num, by norm_num, by decide, by decide⟩

/-- A tie: 2^24 + 1 lies midway between 2^24 and 2^24 + 2, and the even fraction is taken. -/
theorem witness_RoundingIsToNearestWithTiesToEven_tie :
    rne32 (2 ^ 24 + 1) 1 = 0x4B800000 ∧ floatValue 0x4B800000 = 2 ^ 24 ∧ floatValue 0x4B800001 = 2 ^ 24 + 2 := by
  have h0 : (151 : BitVec 8) ≠ 0 := by decide
  have ht : (151 : BitVec 8).toNat = 151 := rfl
  refine ⟨by decide, ?_, ?_⟩
  · have h1 : floatSign 0x4B800000 = false := by decide
    have h2 : floatExp 0x4B800000 = 151 := by decide
    have h3 : (floatFrac 0x4B800000).toNat = 0 := by decide
    simp only [floatValue, h1, h2, h3, if_neg h0, ht]
    norm_num
  · have h1 : floatSign 0x4B800001 = false := by decide
    have h2 : floatExp 0x4B800001 = 151 := by decide
    have h3 : (floatFrac 0x4B800001).toNat = 1 := by decide
    simp only [floatValue, h1, h2, h3, if_neg h0, ht]
    norm_num

theorem witness_FloatOutputsAreFiniteNormalOrPlusZero :
    (decodePayload .pos 0x00017FFF).posX ∈
      [(decodePayload .pos 0x00017FFF).posX, (decodePayload .pos 0x00017FFF).posY,
       (decodePayload .pos 0x00017FFF).velX, (decodePayload .pos 0x00017FFF).velY] ∧
    (decodePayload .pos 0x00017FFF).posX ≠ 0 ∧ (decodePayload .pos 0x00017FFF).posY = 0 := by decide

theorem witness_DivisionInBinary32Agrees : |(-16777215 : Int)| < 2 ^ 24 ∧ 0 < 16777215 ∧ 16777215 < 2 ^ 24 := by decide

/-- A stream's record, and its category code. -/
theorem witness_RecordsCarryOnlyTheTwoCategoryCodes :
    ∃ r, r ∈ recordsIn (responsesTo [encode (.procVel 14 597 0x7FFE8001 2)] sample) ∧ r.cat = 0b10 :=
  ⟨_, List.mem_singleton.2 rfl, rfl⟩

theorem witness_UnpopulatedPairIsPlusZero :
    (∃ r, r ∈ recordsIn (responsesTo [encode (.procPos 1 2 3 4)] sample) ∧ r.cat = 0b01) ∧
    ∃ r, r ∈ recordsIn (responsesTo [encode (.procVel 1 2 3 4)] sample) ∧ r.cat = 0b10 :=
  ⟨⟨_, List.mem_singleton.2 rfl, rfl⟩, ⟨_, List.mem_singleton.2 rfl, rfl⟩⟩

theorem witness_FramesOfDifferentCategoriesCommute :
    isFrameOf .pos (encode (.procPos 1 2 3 4)) = true ∧ isFrameOf (other .pos) (encode (.procVel 5 6 7 8)) = true := by
  decide

theorem witness_ResetSeparatesRuns : isReset ⟨true, true, ⟨15, 1, 2, 3, 4⟩⟩ = true := rfl

/-- S2: a stale last frame number and count with `seen` = 0, against the reset state. -/
theorem witness_StaleTrackerFieldsAreUnobservable :
    Alike { State.reset with seqPos := ⟨500, 77, false⟩ } State.reset ∧
    { State.reset with seqPos := ⟨500, 77, false⟩ } ≠ State.reset := by
  refine ⟨?_, by decide⟩
  intro c
  cases c <;> exact ⟨.inr ⟨rfl, rfl⟩, .inr ⟨rfl, rfl⟩⟩

/-- A state inside a run, with a record presented, meets the invariant, and it steps. -/
theorem witness_EveryStepKeepsTheInvariant :
    ∃ s t, Inv s ∧ s.recPort ≠ none ∧ step s = .next t := by
  refine ⟨processFrame .pos ⟨15, 1, 2, 3, 4⟩ State.reset, _, ?_, by simp, step_eq _⟩
  constructor
  · intro c; cases c <;> rfl
  · intro c h; cases c
    · cases h
    · exact ⟨rfl, rfl⟩
  · exact .inr rfl
  · intro r h
    cases h
    exact ⟨.pos, rfl, rfl, rfl, rfl, rfl, rfl, rfl, rfl⟩
  · intro d h; cases h

theorem witness_TrackerStateIsExactly100Bits :
    sample.trackerWord = (sample.withStream [.nothing]).trackerWord ∧ sample ≠ sample.withStream [.nothing] := by decide

end Sys2Proof.Tests
end

section
/-! PROOF. A frame of one category against the other category's trackers (10_state.md R23). -/

namespace Sys2Proof.Machine

variable (c : Recognised) (f : Frame)

/-- R23, the writes. -/
theorem processFrame_agreeOn_other (s : State) : AgreeOn (other c) (processFrame c f s) s :=
  ⟨processFrame_seq_other c f s, processFrame_tim_other c f s⟩

/-- R23, the reads: what a frame writes to its own trackers depends on those trackers alone. -/
theorem processFrame_agreeOn_of_agreeOn {s s' : State} (h : AgreeOn c s s') :
    AgreeOn c (processFrame c f s) (processFrame c f s') := by
  obtain ⟨hseq, _⟩ := h
  constructor
  · simp [hseq]
  · simp

/-- R23, the reads: the record depends on the category's own trackers alone. -/
theorem processFrame_recPort_of_agreeOn {s s' : State} (h : AgreeOn c s s') :
    (processFrame c f s).recPort = (processFrame c f s').recPort := by
  obtain ⟨hseq, htim⟩ := h
  rw [processFrame_recPort, processFrame_recPort, assembleRecord_congr c f s s' hseq htim]

end Sys2Proof.Machine

namespace Sys2Proof.Proofs

open Sys2Proof Sys2Proof.Machine

/-- Settles O26: both steps are `processFrame`, which is framed by the category's own trackers. -/
theorem frameOfOneCategoryNeverTouchesTheOther : Obligations.FrameOfOneCategoryNeverTouchesTheOther := by
  intro c fn ts p ck s s' t t' hagree hs hs'
  rw [exec_procOf] at hs hs'
  cases hs
  cases hs'
  exact ⟨processFrame_agreeOn_other c _ s, processFrame_agreeOn_of_agreeOn c _ hagree,
    processFrame_recPort_of_agreeOn c _ hagree⟩

end Sys2Proof.Proofs
end

section
/-! PROOF. One operation's response and what it leaves, then streams in order (20_memory.md R44, R45, R51). -/

namespace Sys2Proof.Machine

variable (s : State)

/-! ## One operation -/

/-- Presenting one operation and stepping executes that operation, in any state. -/
theorem step_presentOp (p : OpPort) : step (s.presentOp p) = .next (nextState p s) := step_eq _

theorem presentNothing_sameTrackers : SameTrackers s.presentNothing s := ⟨rfl, rfl, rfl, rfl⟩

/-- R44 for one operation: which of the two ports its step drives. -/
theorem nextState_ports_isSome (p : OpPort) :
    ((nextState p s).recPort.isSome, (nextState p s).diagPort.isSome)
      = (isFrameOf .pos p || isFrameOf .vel p, isUnknownFrame p) := by
  rcases nextState_cases s p with ⟨hreset, h⟩ | ⟨-, hvalid, h⟩ | ⟨c, hframe, hcat, h⟩ | ⟨hunknown, hcat, h⟩
  · have hrst : p.rst = true := hreset
    simp [h, isFrameOf, isUnknownFrame, hrst]
  · simp [h, isFrameOf, isUnknownFrame, hvalid]
  · have hrecord : (isFrameOf .pos p || isFrameOf .vel p) = true := by cases c <;> simp [hframe]
    have hknown : isUnknownFrame p = false := by cases c <;> simp [isUnknownFrame, hcat, Recognised.category]
    simp [h, hrecord, hknown]
  · simp [h, hunknown, isFrameOf, hcat, Recognised.category]

/-! ## Streams, one part after the other -/

/-- What the host was about to present in `s` plays no part in the responses to `ops`. -/
theorem responsesTo_withStream (xs ops : List OpPort) : responsesTo ops (s.withStream xs) = responsesTo ops s := rfl

/-- Nor in where `ops` ends. -/
theorem outcomeOf_withStream (xs ops : List OpPort) : outcomeOf ops (s.withStream xs) = outcomeOf ops s := rfl

/-- R51 on responses: the second part is answered from the state that the first part leaves. -/
theorem responsesTo_append (xs ys : List OpPort) :
    responsesTo (xs ++ ys) s = responsesTo xs s ++ responsesTo ys (stateAfter xs s) := by
  induction xs generalizing s with
  | nil => rfl
  | cons p xs ih => simp [ih, stateAfter]

/-- R51 on outcomes. -/
theorem outcomeOf_append (xs ys : List OpPort) : outcomeOf (xs ++ ys) s = outcomeOf ys (stateAfter xs s) := by
  induction xs generalizing s with
  | nil => rfl
  | cons p xs ih => simp [ih, stateAfter]

end Sys2Proof.Machine

namespace Sys2Proof.Proofs

open Sys2Proof Sys2Proof.Machine

/-- Settles O15, by induction on the stream: each step drives the ports as its own operation says. -/
theorem eachOperationGetsExactlyItsResponse : Obligations.EachOperationGetsExactlyItsResponse := by
  intro ops s
  induction ops generalizing s with
  | nil => rfl
  | cons p ops ih => rw [responsesTo_cons, List.map_cons, List.map_cons, nextState_ports_isSome, ih]

/-- Settles O17: the state between the two parts is `stateAfter xs s`, with nothing left to present. -/
theorem operationsTakeEffectInTheOrderPresented : Obligations.OperationsTakeEffectInTheOrderPresented := by
  intro xs ys s
  refine ⟨(stateAfter xs s).withStream [], outcomeOf_eq s xs, ?_, ?_⟩
  · rw [responsesTo_withStream, responsesTo_append]
  · rw [outcomeOf_withStream, outcomeOf_append]

/-- Settles O23: with `rst` and `op_valid` low the next state is `presentNothing`, whatever the frame. -/
theorem idleChangesNothingAndPresentsNothing : Obligations.IdleChangesNothingAndPresentsNothing := by
  intro s f
  have hidle : nextState ⟨false, false, f⟩ s = s.presentNothing := rfl
  refine ⟨s.presentNothing, ?_, exec_idle s, presentNothing_sameTrackers s, recPort_presentNothing s,
    diagPort_presentNothing s, opStream_presentNothing s⟩
  rw [step_presentOp, hidle]

end Sys2Proof.Proofs
end

section
/-! PROOF. Where the words hold their fields, and what reads them back: FW88 (30_encoding.md R60, R61), OR196 (R66),
DG24 (R68). Neighbouring slices appended are one slice, so every word is the word of its fields; the parts of a
concatenation are determined by it, so a record is the record of its word. -/

namespace Sys2Proof

/-! ## FW88, its slices for every identifier width -/

section FrameWord

variable {w : Nat} (id : BitVec w) (fn ts : Half) (payload : PayloadWord) (ck : Byte)

@[simp] theorem frameWord_extract_id : (frameWord id fn ts payload ck).extractLsb' 72 w = id := by
  simp (disch := omega) [frameWord, BitVec.extractLsb'_append_eq_of_le]

@[simp] theorem frameWord_extract_fn : (frameWord id fn ts payload ck).extractLsb' 56 16 = fn := by
  simp (disch := omega) [frameWord, BitVec.extractLsb'_append_eq_of_le, BitVec.extractLsb'_append_eq_of_add_le]

@[simp] theorem frameWord_extract_ts : (frameWord id fn ts payload ck).extractLsb' 40 16 = ts := by
  simp (disch := omega) [frameWord, BitVec.extractLsb'_append_eq_of_le, BitVec.extractLsb'_append_eq_of_add_le]

@[simp] theorem frameWord_extract_payload : (frameWord id fn ts payload ck).extractLsb' 8 32 = payload := by
  simp (disch := omega) [frameWord, BitVec.extractLsb'_append_eq_of_le, BitVec.extractLsb'_append_eq_of_add_le]

@[simp] theorem frameWord_extract_ck : (frameWord id fn ts payload ck).extractLsb' 0 8 = ck :=
  BitVec.extractLsb'_append_eq_right

end FrameWord

/-! ## FW88 and frames -/

theorem Frame.ofWord_word (f : Frame) : Frame.ofWord f.word = f := by
  simp only [Frame.ofWord, Frame.word]
  rw [frameWord_extract_id, frameWord_extract_fn, frameWord_extract_ts, frameWord_extract_payload,
    frameWord_extract_ck]

theorem Frame.word_ofWord (w : BitVec 88) : (Frame.ofWord w).word = w := by
  unfold Frame.ofWord Frame.word frameWord
  rw [extract_append_extract w 56 16 16, extract_append_extract w 40 32 16, extract_append_extract w 8 48 32,
    extract_append_extract w 0 80 8]
  exact extract_all w

/-! ## OR196 and records -/

/-- A concatenation determines its two parts. -/
theorem append_parts_eq {n m : Nat} {x x' : BitVec n} {y y' : BitVec m} (h : x ++ y = x' ++ y') : x = x' ∧ y = y' := by
  constructor
  · simpa only [BitVec.extractLsb'_append_eq_left] using congrArg (BitVec.extractLsb' m n) h
  · simpa only [BitVec.extractLsb'_append_eq_right] using congrArg (BitVec.extractLsb' 0 m) h

namespace Machine

theorem OutputRecord.word_ofWord (w : BitVec 196) : (OutputRecord.ofWord w).word = w := by
  unfold OutputRecord.ofWord OutputRecord.word
  rw [ofBool_getLsbD, ofBool_getLsbD, extract_append_extract w 178 16 2, extract_append_extract w 162 18 16,
    extract_append_extract w 146 34 16, extract_append_extract w 114 50 32, extract_append_extract w 82 82 32,
    extract_append_extract w 50 114 32, extract_append_extract w 18 146 32, extract_append_extract w 17 178 1,
    extract_append_extract w 16 179 1, extract_append_extract w 0 180 16]
  exact extract_all w

/-- The word determines the record: its parts are split off from the least significant end. -/
theorem OutputRecord.word_injective : Function.Injective OutputRecord.word := by
  rintro ⟨_, _, _, _, _, _, _, _, _, _, _⟩ ⟨_, _, _, _, _, _, _, _, _, _, _⟩ h
  obtain ⟨h, hdrop⟩ := append_parts_eq h
  obtain ⟨h, htiming⟩ := append_parts_eq h
  obtain ⟨h, hchecksum⟩ := append_parts_eq h
  obtain ⟨h, hvelY⟩ := append_parts_eq h
  obtain ⟨h, hvelX⟩ := append_parts_eq h
  obtain ⟨h, hposY⟩ := append_parts_eq h
  obtain ⟨h, hposX⟩ := append_parts_eq h
  obtain ⟨h, hts⟩ := append_parts_eq h
  obtain ⟨h, hfn⟩ := append_parts_eq h
  obtain ⟨hid, hcat⟩ := append_parts_eq h
  exact (OutputRecord.mk.injEq ..).mpr ⟨hid, hcat, hfn, hts, hposX, hposY, hvelX, hvelY,
    BitVec.ofBool_eq_iff_eq.mp hchecksum, BitVec.ofBool_eq_iff_eq.mp htiming, hdrop⟩

theorem OutputRecord.ofWord_word (r : OutputRecord) : OutputRecord.ofWord r.word = r :=
  OutputRecord.word_injective (OutputRecord.word_ofWord r.word)

end Machine

end Sys2Proof

namespace Sys2Proof.Proofs

open Sys2Proof Sys2Proof.Machine

/-- Settles O3: the slices of `frameWord` at width 16, and the two round trips. -/
theorem frameWordFieldsStandWhereTheTablePutsThem : Obligations.FrameWordFieldsStandWhereTheTablePutsThem := by
  refine ⟨fun f => ?_, Frame.word_ofWord⟩
  exact ⟨frameWord_extract_id .., frameWord_extract_fn .., frameWord_extract_ts .., frameWord_extract_payload ..,
    frameWord_extract_ck .., Frame.ofWord_word f⟩

/-- Settles O9: `OutputRecord.ofWord` reads the table's slices, so each slice is a field of the round trip. -/
theorem recordWordFieldsStandWhereTheTablePutsThem : Obligations.RecordWordFieldsStandWhereTheTablePutsThem := by
  refine ⟨fun r => ?_, OutputRecord.word_ofWord⟩
  have h := OutputRecord.ofWord_word r
  have hchecksum : r.word.getLsbD 17 = r.checksumOk := congrArg OutputRecord.checksumOk h
  have htiming : r.word.getLsbD 16 = r.timingOk := congrArg OutputRecord.timingOk h
  rw [← ofBool_getLsbD, ← ofBool_getLsbD, hchecksum, htiming]
  exact ⟨congrArg OutputRecord.id h, congrArg OutputRecord.cat h, congrArg OutputRecord.fn h,
    congrArg OutputRecord.ts h, congrArg OutputRecord.posX h, congrArg OutputRecord.posY h,
    congrArg OutputRecord.velX h, congrArg OutputRecord.velY h, rfl, rfl, congrArg OutputRecord.drop h, h⟩

/-- Settles O10: the word is the code appended to the identifier. -/
theorem diagnosticWordHoldsCodeAndIdentifier : Obligations.DiagnosticWordHoldsCodeAndIdentifier := fun d =>
  ⟨BitVec.extractLsb'_append_eq_left, BitVec.extractLsb'_append_eq_right, toNat_append_eq d.code d.id⟩

end Sys2Proof.Proofs
end

section
/-! PROOF. The category as a comparison of the 16-bit identifier with its two values (30_encoding.md R62), and the
operation of a step as R64's chain of comparisons. -/

namespace Sys2Proof

open Machine

theorem categoryOf_eq_pos_iff_ident (id : Ident) : categoryOf id = .pos ↔ id = 0x000F :=
  (categoryOf_pos_iff id).trans (BitVec.toNat_inj (y := 0x000F))

theorem categoryOf_eq_vel_iff_ident (id : Ident) : categoryOf id = .vel ↔ id = 0x004E :=
  (categoryOf_vel_iff id).trans (BitVec.toNat_inj (y := 0x004E))

/-- R64's last three lines. -/
theorem decodeFrame_eq_ite (f : Frame) :
    decodeFrame f =
      if f.id = 0x000F then .procPos f.fn f.ts f.payload f.ck
      else if f.id = 0x004E then .procVel f.fn f.ts f.payload f.ck
      else .skipUnknown f.id f.fn f.ts f.payload f.ck := by
  simp only [decodeFrame, ← categoryOf_eq_pos_iff_ident, ← categoryOf_eq_vel_iff_ident]
  cases categoryOf f.id <;> rfl

end Sys2Proof

namespace Sys2Proof.Proofs

open Sys2Proof Sys2Proof.Machine

/-- Settles O5: the definition, and its two comparisons as equalities of 16-bit words. -/
theorem categoryIsTheIdentifiersValue : Obligations.CategoryIsTheIdentifiersValue := fun id =>
  ⟨rfl, categoryOf_eq_pos_iff_ident id, categoryOf_eq_vel_iff_ident id⟩

/-- Settles O6: RESET, then IDLE, then the frame operation of `decodeFrame_eq_ite`. -/
theorem operationSelectionFollowsTheControlInputsAndTheIdentifier :
    Obligations.OperationSelectionFollowsTheControlInputsAndTheIdentifier := by
  intro rst valid w
  cases rst with
  | true => rfl
  | false =>
    cases valid with
    | false => rfl
    | true => exact decodeFrame_eq_ite (Frame.ofWord w)

end Sys2Proof.Proofs
end

section
/-! PROOF. Every record a stream produces is assembled from a frame of a recognised category (20_memory.md R44), so it
carries that category's code and identifier (30_encoding.md R63). -/

namespace Sys2Proof.Machine

variable (s : State)

/-- A step that presents a record was given a frame of a recognised category, and the record is that frame's. -/
theorem eq_assembleRecord_of_recPort {p : OpPort} {r : OutputRecord} (h : (nextState p s).recPort = some r) :
    ∃ c : Recognised, categoryOf p.frame.id = c.category ∧ r = assembleRecord c p.frame s := by
  rcases nextState_cases s p with ⟨-, hs⟩ | ⟨-, -, hs⟩ | ⟨c, -, hcat, hs⟩ | ⟨-, -, hs⟩
  · simp [hs] at h
  · simp [hs] at h
  · rw [hs, processFrame_recPort, Option.some.injEq] at h
    exact ⟨c, hcat, h.symm⟩
  · simp [hs] at h

/-- Every record of a stream is the record of some frame of a recognised category, in the state it met. -/
theorem exists_assembleRecord_of_mem_recordsIn {ops : List OpPort} {r : OutputRecord}
    (h : r ∈ recordsIn (responsesTo ops s)) :
    ∃ (c : Recognised) (f : Frame) (t : State), categoryOf f.id = c.category ∧ r = assembleRecord c f t := by
  induction ops generalizing s with
  | nil => simp [recordsIn] at h
  | cons p ops ih =>
    have hcases : (nextState p s).recPort = some r ∨ r ∈ recordsIn (responsesTo ops (nextState p s)) := by
      simpa [recordsIn] using h
    rcases hcases with hhead | htail
    · obtain ⟨c, hcat, hr⟩ := eq_assembleRecord_of_recPort s hhead
      exact ⟨c, p.frame, s, hcat, hr⟩
    · exact ih (nextState p s) htail

end Sys2Proof.Machine

namespace Sys2Proof.Proofs

open Sys2Proof Sys2Proof.Machine

/-- Settles O29: a record is `assembleRecord` of a frame whose category fixes its identifier. -/
theorem recordsCarryOnlyTheTwoCategoryCodes : Obligations.RecordsCarryOnlyTheTwoCategoryCodes := by
  refine ⟨rfl, rfl, rfl, fun ops s r hr => ?_⟩
  obtain ⟨c, f, t, hcat, rfl⟩ := exists_assembleRecord_of_mem_recordsIn s hr
  have hid : f.id = identOf c := eq_identOf_of_categoryOf c f.id hcat
  cases c with
  | pos => exact .inl ⟨rfl, hid⟩
  | vel => exact .inr ⟨rfl, hid⟩

end Sys2Proof.Proofs
end

section
/-! PROOF. The checksum as a sum of integers (30_encoding.md R65; 41_checksum.md R81), and what a frame's step does with
the checksum byte (R83). -/

namespace Sys2Proof.Machine

variable (p : PayloadWord)

/-! ## The payload's bytes as integers (R65) -/

theorem byte0_toNat : (byte0 p).toNat = p.toNat % 2 ^ 8 := BitVec.extractLsb'_toNat 0 8 p

theorem byte1_toNat : (byte1 p).toNat = p.toNat / 2 ^ 8 % 2 ^ 8 := by
  rw [byte1, BitVec.extractLsb'_toNat, Nat.shiftRight_eq_div_pow]

theorem byte2_toNat : (byte2 p).toNat = p.toNat / 2 ^ 16 % 2 ^ 8 := by
  rw [byte2, BitVec.extractLsb'_toNat, Nat.shiftRight_eq_div_pow]

/-- The top byte needs no reduction: the payload has 32 bits. -/
theorem byte3_toNat : (byte3 p).toNat = p.toNat / 2 ^ 24 := by
  have hlt : p.toNat / 2 ^ 24 < 2 ^ 8 := Nat.div_lt_of_lt_mul p.isLt
  rw [byte3, BitVec.extractLsb'_toNat, Nat.shiftRight_eq_div_pow, Nat.mod_eq_of_lt hlt]

/-! ## R81 on integers -/

/-- A sum reduced in two stages is the sum reduced once. -/
theorem u8_u8_add (a b : Int) : u8 (u8 a + b) = u8 (a + b) := Int.emod_add_emod a 256 b

/-- The single-reduction form. -/
theorem checksumOk_iff_u8_eq_zero (ck : Byte) :
    checksumOk p ck = true ↔
      u8 (p.toNat % 2 ^ 8 + p.toNat / 2 ^ 8 % 2 ^ 8 + p.toNat / 2 ^ 16 % 2 ^ 8 + p.toNat / 2 ^ 24 + ck.toNat) = 0 := by
  rw [checksumOk_iff, byte0_toNat, byte1_toNat, byte2_toNat, byte3_toNat, u8]
  norm_cast

/-! ## R83 -/

/-- The checksum byte is read by `checksumOk` alone: another one leaves the step as it was but for that field of the
record. -/
theorem processFrame_with_ck (c : Recognised) (f : Frame) (ck : Byte) (s : State) :
    processFrame c { f with ck := ck } s =
      { processFrame c f s with
        recPort := some { assembleRecord c f s with checksumOk := checksumOk f.payload ck } } := rfl

end Sys2Proof.Machine

namespace Sys2Proof.Proofs

open Sys2Proof Sys2Proof.Machine

/-- Settles O33: the single-reduction form, and the two-stage form by `u8_u8_add`. -/
theorem checksumIsTheModularByteSum : Obligations.ChecksumIsTheModularByteSum := by
  intro p ck
  rw [u8_u8_add]
  exact ⟨checksumOk_iff_u8_eq_zero p ck, checksumOk_iff_u8_eq_zero p ck⟩

/-- Settles O31: both steps are `processFrame`, on frames that differ in `ck` alone. -/
theorem checksumGatesNothing : Obligations.ChecksumGatesNothing := by
  intro c fn ts p ck ck' s
  refine ⟨_, _, exec_procOf c s fn ts p ck, processFrame_recPort c _ s, ?_⟩
  rw [exec_procOf]
  exact congrArg Host.Outcome.next (processFrame_with_ck c ⟨identOf c, fn, ts, p, ck⟩ ck' s)

end Sys2Proof.Proofs
end

section
/-! PROOF. The Sequence Tracker's step on a frame of its category (42_sequence.md R91). -/

namespace Sys2Proof.Proofs

open Sys2Proof Sys2Proof.Machine

/-- Settles O35: the step is `processFrame`, which reports `nextDrop` of the category's tracker and stores it there with
the frame number; `nextDrop_toNat` is its value as an integer. -/
theorem sequenceStepAddsTheGap : Obligations.SequenceStepAddsTheGap := by
  intro c fn ts p ck s
  refine ⟨_, _, exec_procOf c s fn ts p ck, processFrame_recPort c _ s, ?_, ?_⟩
  · exact nextDrop_toNat (s.seq c) fn
  · exact processFrame_seq_same c _ s

end Sys2Proof.Proofs
end

section
/-! PROOF. The acceptable windows as intervals of integers (10_state.md R26; 43_timing.md R101), and the Timing
Validator's step on a frame of its category (R102). -/

namespace Sys2Proof.Machine

/-- The lower bound as an integer: the table's subtraction does not borrow. -/
theorem lo_toNat (c : Recognised) : (lo c).toNat = (windowTable c).period.toNat - (windowTable c).margin.toNat := by
  cases c <;> rfl

/-- The upper bound as an integer: the table's addition does not carry. -/
theorem hi_toNat (c : Recognised) : (hi c).toNat = (windowTable c).period.toNat + (windowTable c).margin.toNat := by
  cases c <;> rfl

/-- The window is closed: both bounds are inclusive. -/
theorem inWindow_iff (c : Recognised) (d : Half) :
    inWindow c d = true ↔ (lo c).toNat ≤ d.toNat ∧ d.toNat ≤ (hi c).toNat := by
  rw [inWindow, Bool.and_eq_true, decide_eq_true_iff, decide_eq_true_iff, BitVec.le_def, BitVec.le_def]

end Sys2Proof.Machine

namespace Sys2Proof.Proofs

open Sys2Proof Sys2Proof.Machine

/-- Settles O41: the step is `processFrame`, which reports `timingOk` of the category's tracker and stores the timestamp
there whatever the result; `timingOk_iff` is the comparison on integers. -/
theorem timingStepComparesTheDelta : Obligations.TimingStepComparesTheDelta := by
  intro c fn ts p ck s
  refine ⟨_, _, exec_procOf c s fn ts p ck, processFrame_recPort c _ s, ?_, ?_⟩
  · exact timingOk_iff c (s.tim c) ts
  · exact processFrame_tim_same c _ s

/-- Settles O40: `inWindow_iff` at each category, whose bounds compute to 23 and 27, 47 and 53. -/
theorem windowsAreTheClosedIntervals : Obligations.WindowsAreTheClosedIntervals :=
  ⟨fun c => ⟨lo_toNat c, hi_toNat c⟩, rfl, rfl, fun d => ⟨inWindow_iff .pos d, inWindow_iff .vel d⟩⟩

end Sys2Proof.Proofs
end

section
/-! PROOF. The payload's two lanes as integers and as parts of a concatenation (30_encoding.md R65), what the Payload
Decoder makes of each (44_payload.md R112, R113, R120), and the pair it leaves at +0 in every record (R114). -/

namespace Sys2Proof.Machine

/-! ## The lanes (R65) -/

section Lanes

variable (p : PayloadWord) (h l : Half)

/-- Lane 1 needs no reduction: the payload has 32 bits. -/
theorem hiHalf_toNat : (hiHalf p).toNat = p.toNat / 2 ^ 16 := by
  have hlt : p.toNat / 2 ^ 16 < 2 ^ 16 := Nat.div_lt_of_lt_mul p.isLt
  rw [hiHalf, toNat_extract_eq, Nat.mod_eq_of_lt hlt]

theorem loHalf_toNat : (loHalf p).toNat = p.toNat % 2 ^ 16 := BitVec.extractLsb'_toNat 0 16 p

@[simp] theorem hiHalf_append : hiHalf (h ++ l) = h := BitVec.extractLsb'_append_eq_left

@[simp] theorem loHalf_append : loHalf (h ++ l) = l := BitVec.extractLsb'_append_eq_right

/-! ## Lane by lane (R120) -/

theorem decodePos_append :
    decodePos (h ++ l) = ⟨rne32 h.toNat 100, rne32 (signedOffset l) 1000, 0, 0⟩ := by
  rw [decodePos, hiHalf_append, loHalf_append, posXDiv, posYDiv]

theorem decodeVel_append :
    decodeVel (h ++ l) = ⟨0, 0, rne32 (signedOffset h) 1000, rne32 (signedOffset l) 1000⟩ := by
  rw [decodeVel, hiHalf_append, loHalf_append, velDiv]

/-! ## Each lane as an integer (R112, R113, R115) -/

theorem signedOffset_hiHalf : signedOffset (hiHalf p) = (p.toNat / 2 ^ 16 : Int) - 32767 := by
  rw [signedOffset, hiHalf_toNat, decOffset]
  norm_cast

theorem signedOffset_loHalf : signedOffset (loHalf p) = (p.toNat % 2 ^ 16 : Int) - 32767 := by
  rw [signedOffset, loHalf_toNat, decOffset]
  norm_cast

end Lanes

/-! ## The corner halves -/

theorem rne32_signedOffset_0x7FFF : rne32 (signedOffset 0x7FFF) 1000 = 0x00000000 := by decide

theorem rne32_signedOffset_0x0000 : rne32 (signedOffset 0x0000) 1000 = 0xC2031168 := by decide

theorem rne32_signedOffset_0xFFFF : rne32 (signedOffset 0xFFFF) 1000 = 0x4203126F := by decide

theorem rne32_signedOffset_0x8000 : rne32 (signedOffset 0x8000) 1000 = 0x3A83126F := by decide

end Sys2Proof.Machine

namespace Sys2Proof.Proofs

open Sys2Proof Sys2Proof.Machine

/-- Settles O48: `decodePos_append` and `decodeVel_append` show each field without the other lane. -/
theorem payloadLanesAreIndependent : Obligations.PayloadLanesAreIndependent := by
  intro c h h' l l'
  refine ⟨?_, ?_, ?_, ?_, decodePos_append h l, decodeVel_append h l⟩
  all_goals cases c <;> simp only [decodePayload, decodePos_append, decodeVel_append]

/-- Settles O46: the lanes as integers, then R112's corner halves with the other lane free. -/
theorem positionPayloadDecodes : Obligations.PositionPayloadDecodes := by
  refine ⟨fun p => ⟨?_, ?_, rfl, rfl⟩, fun l => ?_, fun h => ?_⟩
  · rw [decodePos, hiHalf_toNat, posXDiv]
    norm_cast
  · rw [decodePos, signedOffset_loHalf, posYDiv]
  · have hmax : rne32 (65535 : Int) 100 = 0x4423D666 := by decide
    rw [decodePos_append, decodePos_append]
    exact ⟨rfl, hmax⟩
  · rw [decodePos_append, decodePos_append, decodePos_append]
    exact ⟨rne32_signedOffset_0x7FFF, rne32_signedOffset_0x0000, rne32_signedOffset_0xFFFF⟩

/-- Settles O47: the lanes as integers, then R113's corner halves in either lane. -/
theorem velocityPayloadDecodes : Obligations.VelocityPayloadDecodes := by
  refine ⟨fun p => ⟨?_, ?_, rfl, rfl⟩, fun l => ?_, fun h => ?_⟩
  · rw [decodeVel, signedOffset_hiHalf, velDiv]
  · rw [decodeVel, signedOffset_loHalf, velDiv]
  all_goals
    rw [decodeVel_append, decodeVel_append, decodeVel_append, decodeVel_append]
    exact ⟨rne32_signedOffset_0x7FFF, rne32_signedOffset_0x0000, rne32_signedOffset_0xFFFF,
      rne32_signedOffset_0x8000⟩

/-- Settles O30: a record is `assembleRecord` of a frame of one recognised category, whose code tells the two clauses
apart and whose decoder leaves the other pair at +0. -/
theorem unpopulatedPairIsPlusZero : Obligations.UnpopulatedPairIsPlusZero := by
  intro ops s r hr
  obtain ⟨c, f, t, -, rfl⟩ := exists_assembleRecord_of_mem_recordsIn s hr
  cases c with
  | pos =>
    have hcode : catCode .pos ≠ 0b10 := by decide
    exact ⟨fun _ => ⟨rfl, rfl⟩, fun hcat => absurd hcat hcode⟩
  | vel =>
    have hcode : catCode .vel ≠ 0b01 := by decide
    exact ⟨fun hcat => absurd hcat hcode, fun _ => ⟨rfl, rfl⟩⟩

end Sys2Proof.Proofs
end

section
/-! PROOF. `rne32` against the pseudocode of 44_payload.md R111 in exact rationals: the rounded significand, the pattern
packed from it, and the exponents of the decoder's quotients. -/

namespace Sys2Proof.Machine

/-- R111's `M` from `m`: the integer nearest to `m`, with ties to even. -/
def roundHalfEven (m : ℚ) : Int :=
  ⌊m⌋ + (if Int.fract m > 1 / 2 ∨ (Int.fract m = 1 / 2 ∧ ⌊m⌋ % 2 = 1) then 1 else 0)

/-- Rounding a significand of 24 bits keeps it, or carries to `2^24`. -/
theorem roundHalfEven_bounds {m : ℚ} (hlow : 2 ^ 23 ≤ m) (hhigh : m < 2 ^ 24) :
    2 ^ 23 ≤ roundHalfEven m ∧ roundHalfEven m ≤ 2 ^ 24 := by
  have hfloorLow : 2 ^ 23 ≤ ⌊m⌋ := by rw [Int.le_floor]; exact_mod_cast hlow
  have hfloorHigh : ⌊m⌋ < 2 ^ 24 := by rw [Int.floor_lt]; exact_mod_cast hhigh
  unfold roundHalfEven
  split <;> omega

/-- `roundSignificand` at binary32's width is R111's `M` and `e`, the carry out of the significand included. -/
theorem roundSignificand_24_eq (n d : Nat) (hd : 0 < d) {m : ℚ} (hm : m = (n : ℚ) / d * 2 ^ (23 - floorLog2 n d)) :
    roundSignificand 24 n d =
      if roundHalfEven m = 2 ^ 24 then (2 ^ 23, floorLog2 n d + 1)
      else ((roundHalfEven m).toNat, floorLog2 n d) := by
  have hshift : ((24 : Nat) : Int) - 1 - floorLog2 n d = 23 - floorLog2 n d := by norm_num
  have hround : (roundQuotient (n * 2 ^ (23 - floorLog2 n d).toNat) (d * 2 ^ (-(23 - floorLog2 n d)).toNat) : Int)
      = roundHalfEven m :=
    roundQuotient_eq _ _ (by positivity) m (hm.trans (scaled_eq n d _ hd).symm)
  unfold roundSignificand
  simp only [hshift, ← hround, Int.toNat_natCast]
  norm_cast

/-- The pattern of a nonzero rational, from R111's `M` and `e`. -/
theorem rne32_toNat (num : Int) (den : Nat) (hnum : num ≠ 0) (hden : 0 < den) {m : ℚ}
    (hm : m = (num.natAbs : ℚ) / den * 2 ^ (23 - floorLog2 num.natAbs den)) :
    ((rne32 num den).toNat : Int) =
      (if num < 0 then 2 ^ 31 else 0)
        + (if roundHalfEven m = 2 ^ 24 then u8 (floorLog2 num.natAbs den + 1 + 127) * 2 ^ 23
           else u8 (floorLog2 num.natAbs den + 127) * 2 ^ 23 + (roundHalfEven m - 2 ^ 23)) := by
  obtain ⟨hmLow, hmHigh⟩ := significand_bounds num.natAbs den (Int.natAbs_pos.2 hnum) hden
  obtain ⟨hlow, hhigh⟩ := roundHalfEven_bounds (m := m) (hm ▸ hmLow) (hm ▸ hmHigh)
  have hpack : rne32 num den =
      packBinary32 (decide (num < 0)) (roundSignificand 24 num.natAbs den).1
        (roundSignificand 24 num.natAbs den).2 := if_neg hnum
  rw [hpack, roundSignificand_24_eq _ _ hden hm]
  by_cases hcarry : roundHalfEven m = 2 ^ 24
  · rw [if_pos hcarry, if_pos hcarry, packBinary32_toNat _ _ _ (by norm_num) (by norm_num)]
    simp [u8]
  · have hcast : ((roundHalfEven m).toNat : Int) = roundHalfEven m := Int.toNat_of_nonneg (by omega)
    rw [if_neg hcarry, if_neg hcarry, packBinary32_toNat _ _ _ (by omega) (by omega), hcast]
    simp [u8, add_assoc]

/-- The magnitude of a fraction, with the numerator's magnitude as a natural number. -/
theorem abs_fraction (num : Int) (den : Nat) : |(num : ℚ) / den| = (num.natAbs : ℚ) / den := by
  rw [abs_div, Nat.abs_cast, Nat.cast_natAbs, Int.cast_abs]

/-! ## The decoder's quotients -/

/-- `-10 <= e <= 9` (R111) for every nonzero magnitude of at most 16 bits over a divisor from 100 to 1000. -/
theorem quotient_exponent_range {a d : ℚ} (hlow : 1 ≤ a) (hhigh : a ≤ 65535) (hd : 100 ≤ d) (hd' : d ≤ 1000) :
    (2 : ℚ) ^ (-10 : Int) ≤ a / d ∧ a / d < (2 : ℚ) ^ (10 : Int) := by
  have hpos : 0 < d := by linarith
  have hleast : (2 : ℚ) ^ (-10 : Int) = 1 / 1024 := by norm_num
  have hgreatest : (2 : ℚ) ^ (10 : Int) = 1024 := by norm_num
  rw [hleast, hgreatest, le_div_iff₀ hpos, div_lt_iff₀ hpos]
  constructor <;> linarith

/-- The offset is zero at 32767 alone, and its magnitude is at most 32768 (R115). -/
theorem abs_signedOffset_bounds (h : Half) (hne : h ≠ 32767) : 1 ≤ |signedOffset h| ∧ |signedOffset h| ≤ 32768 := by
  have hlt := h.isLt
  have hval : h.toNat ≠ 32767 := fun e => hne (BitVec.eq_of_toNat_eq e)
  constructor
  · exact Int.one_le_abs (by unfold signedOffset decOffset; omega)
  · rw [abs_le]
    unfold signedOffset decOffset
    omega

end Sys2Proof.Machine

namespace Sys2Proof.Proofs

open Sys2Proof Sys2Proof.Machine

/-- Settles O44: `rne32_toNat`, whose exponent is R111's `e` since there is only one, and `quotient_exponent_range`. -/
theorem roundingFollowsTheSpecsPseudocode : Obligations.RoundingFollowsTheSpecsPseudocode := by
  refine ⟨fun _ => rfl, ?_, fun h => ⟨fun hne => ?_, fun hne => ?_⟩⟩
  · intro num den e hnum hden hlow hhigh m M hm hM
    rw [abs_fraction] at hlow hhigh hm
    have he : floorLog2 num.natAbs den = e := floorLog2_unique _ _ (Int.natAbs_pos.2 hnum) hden e hlow hhigh
    have hM' : M = roundHalfEven m := hM
    rw [← he] at hm
    rw [hM', ← he]
    exact rne32_toNat num den hnum hden hm
  · have hlow : 1 ≤ h.toNat := Nat.one_le_iff_ne_zero.2 fun e => hne (BitVec.eq_of_toNat_eq e)
    have hhigh : h.toNat ≤ 65535 := Nat.le_of_lt_succ h.isLt
    exact quotient_exponent_range (by exact_mod_cast hlow) (by exact_mod_cast hhigh) (by norm_num) (by norm_num)
  · obtain ⟨hlow, hhigh⟩ := abs_signedOffset_bounds h hne
    have hmax : |signedOffset h| ≤ 65535 := by omega
    rw [abs_div, abs_of_pos (show (0 : ℚ) < 1000 by norm_num)]
    exact quotient_exponent_range (by exact_mod_cast hlow) (by exact_mod_cast hmax) (by norm_num) (by norm_num)

end Sys2Proof.Proofs
end

section
/-! PROOF. What a presented frame word selects, by its identifier (45_frame_processor.md R131 to R133), and the two
selections that no frame takes part in: RESET's next state (R134) and its precedence (R137). -/

namespace Sys2Proof

open Machine

/-- A presented frame with the identifier of a recognised category is that category's frame operation. -/
theorem decode_ofFrame_of_id_eq (c : Recognised) {f : Frame} (h : f.id = identOf c) :
    decode (.ofFrame f) = procOf c f.fn f.ts f.payload f.ck := by
  have hcat : categoryOf f.id = c.category := by rw [h, categoryOf_identOf]
  have hframe : decode (.ofFrame f) = decodeFrame f := rfl
  rw [hframe, decodeFrame, hcat]
  cases c <;> rfl

/-- A presented frame with any other identifier is SKIP_UNKNOWN. -/
theorem decode_ofFrame_of_unknown {f : Frame} (h : categoryOf f.id = .unk) :
    decode (.ofFrame f) = .skipUnknown f.id f.fn f.ts f.payload f.ck := by
  have hframe : decode (.ofFrame f) = decodeFrame f := rfl
  rw [hframe, decodeFrame, h]

namespace Machine

variable (s : State)

theorem presentDiagnostic_sameTrackers (d : Diagnostic) : SameTrackers (s.presentDiagnostic d) s :=
  ⟨rfl, rfl, rfl, rfl⟩

/-- R64, R137: with `rst` = 1 neither `op_valid` nor the frame is read. -/
theorem nextState_of_rst {p : OpPort} (h : p.rst = true) : nextState p s = (clearTrackers s).presentNothing :=
  if_pos h

/-- R134: two RESETs have the effect of one. -/
theorem clearTrackers_presentNothing_idem :
    (clearTrackers (clearTrackers s).presentNothing).presentNothing = (clearTrackers s).presentNothing := rfl

end Machine

end Sys2Proof

namespace Sys2Proof.Proofs

open Sys2Proof Sys2Proof.Machine

/-- Settles O20: the decode by `categoryOf_unk_iff`; the step is `presentDiagnostic`. -/
theorem skipUnknownOnlyPresentsItsDiagnostic : Obligations.SkipUnknownOnlyPresentsItsDiagnostic := by
  intro id fn ts p ck s
  refine ⟨fun hpos hvel => decode_ofFrame_of_unknown ((categoryOf_unk_iff id).2 ⟨hpos, hvel⟩), ?_⟩
  exact ⟨_, exec_skipUnknown s id fn ts p ck, diagPort_presentDiagnostic s _, recPort_presentDiagnostic s _,
    presentDiagnostic_sameTrackers s _, opStream_presentDiagnostic s _⟩

/-- Settles O21: RESET answers `clearTrackers` with both ports empty, and so does a step with `rst` = 1. -/
theorem resetClearsEveryTracker : Obligations.ResetClearsEveryTracker := by
  intro s
  refine ⟨_, exec_reset s, fun c => ?_, recPort_presentNothing _, diagPort_presentNothing _,
    opStream_presentNothing _, ?_, fun valid f => ?_⟩
  · rw [seq_presentNothing, seq_clearTrackers, tim_presentNothing, tim_clearTrackers]
    exact ⟨rfl, rfl, rfl, rfl, rfl⟩
  · rw [exec_reset, clearTrackers_presentNothing_idem]
  · rw [step_presentOp, nextState_of_rst s rfl]

/-- Settles O22: the step's next state is RESET's, and RESET leaves both ports empty. -/
theorem resetTakesPrecedenceOverAFrame : Obligations.ResetTakesPrecedenceOverAFrame := by
  intro s valid f
  constructor
  · rw [step_presentOp, nextState_of_rst s rfl, exec_reset]
  · rw [responsesTo_cons, responsesTo_nil, nextState_of_rst s rfl, recPort_presentNothing, diagPort_presentNothing]

end Sys2Proof.Proofs
end

section
/-! PROOF. A frame of a recognised category (45_frame_processor.md R131, R132): its step is `processFrame`, whose
trackers and record are stated here for either category, and its record is R136's. -/

namespace Sys2Proof.Machine

variable (c : Recognised) (f : Frame) (s : State)

/-- R91's count after the step, as an integer. -/
theorem processFrame_drop_toNat :
    (((processFrame c f s).seq c).drop.toNat : Int) =
      (if (s.seq c).seen = false then 0
       else u16 ((s.seq c).drop.toNat + u16 ((f.fn.toNat : Int) - (s.seq c).lastFn.toNat - 1))) := by
  rw [processFrame_seq_same]
  exact nextDrop_toNat (s.seq c) f.fn

theorem processFrame_lastFn : ((processFrame c f s).seq c).lastFn = f.fn := by rw [processFrame_seq_same]

theorem processFrame_seq_seen : ((processFrame c f s).seq c).seen = true := by rw [processFrame_seq_same]

theorem processFrame_lastTs : ((processFrame c f s).tim c).lastTs = f.ts := by rw [processFrame_tim_same]

theorem processFrame_tim_seen : ((processFrame c f s).tim c).seen = true := by rw [processFrame_tim_same]

/-- The record reports the count that the step stores. -/
theorem assembleRecord_drop : (assembleRecord c f s).drop = ((processFrame c f s).seq c).drop := by
  rw [processFrame_seq_same, assembleRecord]

/-- R63's codes for the recognised categories. -/
theorem catCode_category : catCode c.category = if c = .pos then 0b01 else 0b10 := by cases c <;> rfl

end Sys2Proof.Machine

namespace Sys2Proof.Proofs

open Sys2Proof Sys2Proof.Machine

/-- Settles O28: the record is `assembleRecord`, with the category's code written out. -/
theorem recordCarriesTheUnitsOutputs : Obligations.RecordCarriesTheUnitsOutputs := by
  intro c fn ts p ck s
  refine ⟨_, exec_procOf c s fn ts p ck, ?_⟩
  rw [processFrame_recPort, assembleRecord, catCode_category]

/-- Settles O18: the step is `processFrame` at Position, whose window's bounds compute to 23 and 27; the identifier,
the code, `fn` and `ts` are read off `assembleRecord`, and R112's four fields are those of O46. -/
theorem procPosUpdatesPositionAndEmitsItsRecord : Obligations.ProcPosUpdatesPositionAndEmitsItsRecord := by
  obtain ⟨hdecoded, -, -⟩ := positionPayloadDecodes
  refine ⟨fun w hid => decode_ofFrame_of_id_eq .pos hid, fun fn ts p ck s => ?_⟩
  exact ⟨_, _, exec_procOf .pos s fn ts p ck,
    processFrame_drop_toNat .pos _ s, processFrame_lastFn .pos _ s, processFrame_seq_seen .pos _ s,
    processFrame_lastTs .pos _ s, processFrame_tim_seen .pos _ s,
    processFrame_seq_other .pos _ s, processFrame_tim_other .pos _ s, processFrame_opStream .pos _ s,
    processFrame_recPort .pos _ s, processFrame_diagPort .pos _ s,
    rfl, rfl, rfl, rfl, assembleRecord_drop .pos _ s,
    timingOk_iff .pos s.timPos ts, checksumOk_iff_u8_eq_zero p ck, hdecoded p⟩

/-- Settles O19: the step is `processFrame` at Velocity, whose window's bounds compute to 47 and 53; the identifier,
the code, `fn` and `ts` are read off `assembleRecord`, and R113's four fields are those of O47. -/
theorem procVelUpdatesVelocityAndEmitsItsRecord : Obligations.ProcVelUpdatesVelocityAndEmitsItsRecord := by
  obtain ⟨hdecoded, -, -⟩ := velocityPayloadDecodes
  refine ⟨fun w hid => decode_ofFrame_of_id_eq .vel hid, fun fn ts p ck s => ?_⟩
  exact ⟨_, _, exec_procOf .vel s fn ts p ck,
    processFrame_drop_toNat .vel _ s, processFrame_lastFn .vel _ s, processFrame_seq_seen .vel _ s,
    processFrame_lastTs .vel _ s, processFrame_tim_seen .vel _ s,
    processFrame_seq_other .vel _ s, processFrame_tim_other .vel _ s, processFrame_opStream .vel _ s,
    processFrame_recPort .vel _ s, processFrame_diagPort .vel _ s,
    rfl, rfl, rfl, rfl, assembleRecord_drop .vel _ s,
    timingOk_iff .vel s.timVel ts, checksumOk_iff_u8_eq_zero p ck, hdecoded p⟩

end Sys2Proof.Proofs
end

section
/-! PROOF. No operation fails, aborts or stalls (60_exceptions.md R150). -/

namespace Sys2Proof.Machine

/-- R150 for one operation: each of the five meanings answers a next state, in every state and on every operand. -/
theorem exec_answers_next (i : Instr) (s : State) : ∃ t, exec i s = .next t := by
  cases i with
  | procPos fn ts p ck => exact ⟨_, exec_procOf .pos s fn ts p ck⟩
  | procVel fn ts p ck => exact ⟨_, exec_procOf .vel s fn ts p ck⟩
  | skipUnknown id fn ts p ck => exact ⟨_, exec_skipUnknown s id fn ts p ck⟩
  | reset => exact ⟨_, exec_reset s⟩
  | idle => exact ⟨_, exec_idle s⟩

end Sys2Proof.Machine

namespace Sys2Proof.Proofs

open Sys2Proof Sys2Proof.Machine

/-- Settles O14: one operation by `exec_answers_next`; a stream ends in `stateAfter`, with nothing left to present. -/
theorem noOperationFailsAbortsOrStalls : Obligations.NoOperationFailsAbortsOrStalls := by
  refine ⟨exec_answers_next, fun ops s => ?_⟩
  exact ⟨(stateAfter ops s).withStream [], outcomeOf_eq s ops, opStream_withStream _ []⟩

end Sys2Proof.Proofs
end

section
/-! PROOF. The decoder against the encoder: an operation is decoded from what presents it (30_encoding.md R60, R64), a
frame word is presented again by the operation it selects (R69), the frame word at any identifier width (R61), and the
words the spec writes out (R71; 95_test_vectors.md, the O-table). -/

namespace Sys2Proof

open Machine

/-- The operation of category `c` presents its operands with the category's identifier. -/
theorem encode_procOf (c : Recognised) (fn ts : Half) (payload : PayloadWord) (ck : Byte) :
    encode (procOf c fn ts payload ck) = .ofFrame ⟨identOf c, fn, ts, payload, ck⟩ := by
  cases c <;> rfl

/-- R133: SKIP_UNKNOWN is well-formed on the identifiers of the category Unknown. -/
theorem wellFormed_skipUnknown_iff (id : Ident) (fn ts : Half) (payload : PayloadWord) (ck : Byte) :
    (Instr.skipUnknown id fn ts payload ck).WellFormed ↔ categoryOf id = .unk := by
  rw [categoryOf_unk_iff, Instr.WellFormed, Instr.wellFormed, Bool.and_eq_true, bne_iff_ne, bne_iff_ne, idPos, idVel]

theorem wellFormed_procOf (c : Recognised) (fn ts : Half) (payload : PayloadWord) (ck : Byte) :
    (procOf c fn ts payload ck).WellFormed := by
  cases c <;> rfl

/-- A frame has the identifier of a recognised category, or an unrecognised one. -/
theorem Frame.id_cases (f : Frame) : (∃ c, f.id = identOf c) ∨ categoryOf f.id = .unk := by
  cases h : categoryOf f.id with
  | unk => exact .inr rfl
  | pos => exact .inl ⟨.pos, eq_identOf_of_categoryOf .pos f.id h⟩
  | vel => exact .inl ⟨.vel, eq_identOf_of_categoryOf .vel f.id h⟩

/-- R69: every frame selects an operation of the block. -/
theorem wellFormed_decode_ofFrame (f : Frame) : (decode (.ofFrame f)).WellFormed := by
  rcases f.id_cases with ⟨c, hid⟩ | hunknown
  · rw [decode_ofFrame_of_id_eq c hid]
    exact wellFormed_procOf c ..
  · rw [decode_ofFrame_of_unknown hunknown]
    exact (wellFormed_skipUnknown_iff ..).2 hunknown

/-- R69: the operation that a frame selects presents that frame. -/
theorem encode_decode_ofFrame (f : Frame) : encode (decode (.ofFrame f)) = .ofFrame f := by
  rcases f.id_cases with ⟨c, hid⟩ | hunknown
  · rw [decode_ofFrame_of_id_eq c hid, encode_procOf, ← hid]
  · rw [decode_ofFrame_of_unknown hunknown, encode]

/-- R61: where an identifier port has room for a number, equality with it is equality of integers. -/
theorem toNat_eq_iff_eq_ofNat {w n : Nat} (id : BitVec w) (hn : n < 2 ^ 7) (hw : 7 ≤ w) :
    id.toNat = n ↔ id = BitVec.ofNat w n := by
  have hfits : n < 2 ^ w := hn.trans_le (Nat.pow_le_pow_right (by decide) hw)
  rw [← BitVec.toNat_inj, BitVec.toNat_ofNat, Nat.mod_eq_of_lt hfits]

/-- R60 as an integer: each field counts from its lowest bit. -/
theorem Frame.word_toNat (f : Frame) :
    f.word.toNat = f.id.toNat * 2 ^ 72 + f.fn.toNat * 2 ^ 56 + f.ts.toNat * 2 ^ 40 + f.payload.toNat * 2 ^ 8
      + f.ck.toNat := by
  unfold Frame.word frameWord
  rw [toNat_append_eq, toNat_append_eq, toNat_append_eq, toNat_append_eq]
  ring

end Sys2Proof

namespace Sys2Proof.Proofs

open Sys2Proof Sys2Proof.Machine

/-- Settles O1, by cases on the operation: a frame operation presents the identifier that selects it. -/
theorem decodeOfEncodeIsTheInstruction : Obligations.DecodeOfEncodeIsTheInstruction := by
  intro i hwf
  cases i with
  | procPos fn ts payload ck => exact decode_ofFrame_of_id_eq .pos rfl
  | procVel fn ts payload ck => exact decode_ofFrame_of_id_eq .vel rfl
  | skipUnknown id fn ts payload ck => exact decode_ofFrame_of_unknown ((wellFormed_skipUnknown_iff ..).1 hwf)
  | reset => rfl
  | idle => rfl

/-- Settles O2: the two facts of R69 about frames, at the frame of the word. -/
theorem everyFrameWordSelectsOneOperation : Obligations.EveryFrameWordSelectsOneOperation := by
  intro w
  refine ⟨wellFormed_decode_ofFrame _, encode_decode_ofFrame _, ?_⟩
  rw [encode_decode_ofFrame]
  exact Frame.word_ofWord w

/-- Settles O4: the slices of `frameWord`, and the category's two comparisons on a port of at least 7 bits. -/
theorem encodingHoldsForEveryIdentifierWidth : Obligations.EncodingHoldsForEveryIdentifierWidth := by
  intro W id fn ts payload ck
  refine ⟨frameWord_extract_id .., frameWord_extract_fn .., frameWord_extract_ts .., frameWord_extract_payload ..,
    frameWord_extract_ck .., fun hW => ⟨?_, ?_⟩⟩
  · exact (categoryOf_pos_iff id).trans (toNat_eq_iff_eq_ofNat id (by decide) hW)
  · exact (categoryOf_vel_iff id).trans (toNat_eq_iff_eq_ofNat id (by decide) hW)

/-- Settles O7: the decoder runs on the O-table's words. -/
theorem writtenWordsDecodeToTheirOperations : Obligations.WrittenWordsDecodeToTheirOperations := by
  refine ⟨?_, ?_, ?_, ?_, ?_, ?_⟩ <;> decide

/-- Settles O8: RESET and IDLE lines by the order of R64; a FRAME line presents the frame of its numbers, each of which
is its field's value. -/
theorem assemblerLinesPresentTheirOperations : Obligations.AssemblerLinesPresentTheirOperations := by
  refine ⟨rfl, rfl, fun id fn ts payload ck hid hfn hts hpayload hck => ⟨rfl, rfl, ?_⟩⟩
  simp only [AsmLine.assemble, OpPort.ofFrame, Frame.word_toNat, BitVec.toNat_ofNat, Nat.mod_eq_of_lt hid,
    Nat.mod_eq_of_lt hfn, Nat.mod_eq_of_lt hts, Nat.mod_eq_of_lt hpayload, Nat.mod_eq_of_lt hck]

end Sys2Proof.Proofs
end

section
/-! PROOF. The machine's invariant, clause by clause: what one operation leaves in the trackers and on the two ports
(10_state.md R21, R22, R30, R32; 20_memory.md R44; 60_exceptions.md R151). -/

namespace Sys2Proof.Machine

variable (s : State) (p : OpPort)

/-! ## The trackers -/

/-- R30: the two units see a category's first frame together. -/
theorem nextState_seen_eq (h : ∀ c, (s.seq c).seen = (s.tim c).seen) (c : Recognised) :
    ((nextState p s).seq c).seen = ((nextState p s).tim c).seen := by
  rcases nextState_cases s p with ⟨-, hs⟩ | ⟨-, -, hs⟩ | ⟨d, -, -, hs⟩ | ⟨-, -, hs⟩
  · simp [hs, SequenceState.initial, TimingState.initial]
  · simp [hs, h c]
  · rcases eq_or_eq_other d c with rfl | rfl
    · simp [hs]
    · simp [hs, h (other d)]
  · simp [hs, h c]

/-- R32: what is unseen after an operation is at its reset values, since RESET left it or nothing has written it. -/
theorem nextState_unseen_initial
    (h : ∀ c, (s.seq c).seen = false → s.seq c = .initial ∧ s.tim c = .initial) (c : Recognised)
    (hunseen : ((nextState p s).seq c).seen = false) :
    (nextState p s).seq c = .initial ∧ (nextState p s).tim c = .initial := by
  rcases nextState_cases s p with ⟨-, hs⟩ | ⟨-, -, hs⟩ | ⟨d, -, -, hs⟩ | ⟨-, -, hs⟩
  · simp [hs]
  · simp only [hs, seq_presentNothing, tim_presentNothing] at hunseen ⊢
    exact h c hunseen
  · rcases eq_or_eq_other d c with rfl | rfl
    · simp [hs] at hunseen
    · simp only [hs, processFrame_seq_other, processFrame_tim_other] at hunseen ⊢
      exact h (other d) hunseen
  · simp only [hs, seq_presentDiagnostic, tim_presentDiagnostic] at hunseen ⊢
    exact h c hunseen

/-! ## The ports -/

/-- R44: no operation presents both a record and a diagnostic. -/
theorem nextState_oneResponse : (nextState p s).recPort = none ∨ (nextState p s).diagPort = none := by
  rcases nextState_cases s p with ⟨-, hs⟩ | ⟨-, -, hs⟩ | ⟨c, -, -, hs⟩ | ⟨-, -, hs⟩ <;> simp [hs]

/-- R114: the pair a category does not populate. -/
theorem decodePayload_unpopulated (c : Recognised) (payload : PayloadWord) :
    if c = .pos then (decodePayload c payload).velX = 0 ∧ (decodePayload c payload).velY = 0
    else (decodePayload c payload).posX = 0 ∧ (decodePayload c payload).posY = 0 := by
  cases c <;> exact ⟨rfl, rfl⟩

/-- The record of a frame of a recognised category fits the state that the frame leaves. -/
theorem recordFits_processFrame (c : Recognised) (f : Frame) (hcat : categoryOf f.id = c.category) :
    RecordFits c (assembleRecord c f s) (processFrame c f s) where
  cat := rfl
  id := eq_identOf_of_categoryOf c f.id hcat
  drop := assembleRecord_drop c f s
  fn := (processFrame_lastFn c f s).symm
  ts := (processFrame_lastTs c f s).symm
  seen := processFrame_seq_seen c f s
  unpopulated := decodePayload_unpopulated c f.payload

theorem nextState_recordFits {r : OutputRecord} (h : (nextState p s).recPort = some r) :
    ∃ c, RecordFits c r (nextState p s) := by
  rcases nextState_cases s p with ⟨-, hs⟩ | ⟨-, -, hs⟩ | ⟨c, -, hcat, hs⟩ | ⟨-, -, hs⟩
  · simp [hs] at h
  · simp [hs] at h
  · rw [hs] at h ⊢
    cases h
    exact ⟨c, recordFits_processFrame s c p.frame hcat⟩
  · simp [hs] at h

/-- R151: a diagnostic has code 0x01 and the identifier of an Unknown frame. -/
theorem nextState_diagnosticFits {d : Diagnostic} (h : (nextState p s).diagPort = some d) :
    d.code = 0x01 ∧ categoryOf d.id = .unk := by
  rcases nextState_cases s p with ⟨-, hs⟩ | ⟨-, -, hs⟩ | ⟨c, -, -, hs⟩ | ⟨-, hcat, hs⟩
  · simp [hs] at h
  · simp [hs] at h
  · simp [hs] at h
  · rw [hs] at h
    cases h
    exact ⟨rfl, hcat⟩

/-! ## The invariant -/

/-- The ports that a step leaves owe nothing to the ports it found, so the trackers' clauses suffice. -/
theorem inv_nextState (hseen : ∀ c, (s.seq c).seen = (s.tim c).seen)
    (hunseen : ∀ c, (s.seq c).seen = false → s.seq c = .initial ∧ s.tim c = .initial) : Inv (nextState p s) where
  seenEqual := nextState_seen_eq s p hseen
  unseenInitial := nextState_unseen_initial s p hunseen
  oneResponse := nextState_oneResponse s p
  recordFits _ := nextState_recordFits s p
  diagnosticFits _ := nextState_diagnosticFits s p

end Sys2Proof.Machine

namespace Sys2Proof.Proofs

open Sys2Proof Sys2Proof.Machine

/-- Settles O58: the step is `nextState` on the state whose operation has been taken, which holds the same trackers. -/
theorem everyStepKeepsTheInvariant : Obligations.EveryStepKeepsTheInvariant := by
  intro s t hinv hstep
  rw [step_eq] at hstep
  cases hstep
  apply inv_nextState
  · simpa only [seq_takeOp, tim_takeOp] using hinv.seenEqual
  · simpa only [seq_takeOp, tim_takeOp] using hinv.unseenInitial

/-- Settles O59: every tracker is at its reset value and neither port presents anything. -/
theorem invariantHoldsAtReset : Obligations.InvariantHoldsAtReset := by
  intro ops
  constructor
  · intro c
    rw [seq_withStream, tim_withStream, seq_reset, tim_reset]
    rfl
  · intro c _
    rw [seq_withStream, tim_withStream]
    exact ⟨seq_reset c, tim_reset c⟩
  · exact .inl rfl
  · intro r hrecord
    cases hrecord
  · intro d hdiagnostic
    cases hdiagnostic

end Sys2Proof.Proofs
end

section
/-! PROOF. Single steps: what the operation port selects and what presents it (00_scope.md R7; 20_memory.md R41), which
trackers a step can write (10_state.md R23, R24, R32), and any number of steps with nothing presented (R50). -/

namespace Sys2Proof.Machine

variable (s : State)

/-- Log 1: a step for which the host presents nothing is IDLE. -/
theorem step_of_stream_nil (h : s.opStream = []) : step s = exec .idle s := by
  have htake : s.takeOp = s := by
    rw [State.takeOp, h, List.tail_nil, ← h]
  have hcurrent : s.currentOp = .nothing := by rw [State.currentOp, h, List.headD_nil]
  rw [step, htake, hcurrent]
  rfl

/-- A step executes what the operation presented in front decodes to, in the state as it was. -/
theorem step_presentOp_eq_exec (p : OpPort) : step (s.presentOp p) = exec (decode p) s := by
  rw [step, currentOp_presentOp, takeOp_presentOp]

/-- R24: a category's trackers outlast every step that is neither RESET nor a frame of the category. -/
theorem step_agreeOn {t : State} {c : Recognised} (hstep : step s = .next t) (h : keeps c s.currentOp = false) :
    AgreeOn c t s := by
  rw [step_eq] at hstep
  cases hstep
  simpa only [AgreeOn, seq_takeOp, tim_takeOp] using nextState_agreeOn c s.takeOp s.currentOp h

theorem clearTrackers_presentNothing_sameTrackers : SameTrackers (clearTrackers s).presentNothing State.reset :=
  ⟨rfl, rfl, rfl, rfl⟩

theorem SameTrackers.trans {s t u : State} (h : SameTrackers s t) (h' : SameTrackers t u) : SameTrackers s u := by
  obtain ⟨h1, h2, h3, h4⟩ := h
  obtain ⟨k1, k2, k3, k4⟩ := h'
  exact ⟨h1.trans k1, h2.trans k2, h3.trans k3, h4.trans k4⟩

/-- R161: with nothing presented, the trackers hold over any number of steps. -/
theorem run_of_stream_nil (n : Nat) (h : s.opStream = []) :
    ∃ t, Sys2Proof.core.run n s = .next t ∧ SameTrackers t s := by
  induction n generalizing s with
  | zero => exact ⟨s, rfl, rfl, rfl, rfl, rfl⟩
  | succ n ih =>
    have hstep : Sys2Proof.core.step s = .next s.presentNothing := step_of_stream_nil s h
    obtain ⟨t, hrun, ht⟩ := ih s.presentNothing h
    refine ⟨t, ?_, ht.trans (presentNothing_sameTrackers s)⟩
    simp only [Host.Core.run, hstep]
    exact hrun

/-- R135: the two units write different trackers. -/
theorem seqStep_timStep_comm (c d : Recognised) (fn ts : Half) :
    seqStep c fn (timStep d ts s) = timStep d ts (seqStep c fn s) := by
  cases c <;> cases d <;> rfl

end Sys2Proof.Machine

namespace Sys2Proof.Proofs

open Sys2Proof Sys2Proof.Machine

/-- Settles O12: the head of the stream, O1 for an operation presented in front, and log 1's IDLE. -/
theorem stepExecutesTheSelectedOperation : Obligations.StepExecutesTheSelectedOperation := by
  intro s
  refine ⟨fun p rest h => ?_, fun i hwf => ?_, step_of_stream_nil s⟩
  · rw [step, State.currentOp, State.takeOp, h]
    rfl
  · rw [step_presentOp_eq_exec, decodeOfEncodeIsTheInstruction i hwf]

/-- Settles O13: a table word that decodes drives an operation port, which is presented in front. -/
theorem presentedTableWordIsExecuted : Obligations.PresentedTableWordIsExecuted := by
  intro s nbits w i h
  unfold decodeTableWord at h
  unfold State.withFetchWord
  cases hport : OpPort.ofTableWord nbits w with
  | ok p =>
    simp only [hport, Option.some.injEq] at h
    rw [← h]
    exact step_presentOp_eq_exec s p
  | error e => simp [hport] at h

/-- Settles O24: every step is IDLE, which leaves the trackers and the empty stream. -/
theorem trackersHoldWhileTheHostIsIdle : Obligations.TrackersHoldWhileTheHostIsIdle :=
  fun n s h => run_of_stream_nil s n h

/-- Settles O25: RESET answers `clearTrackers`, which are the power-on trackers. -/
theorem powerOnTrackersAreThoseOfReset : Obligations.PowerOnTrackersAreThoseOfReset :=
  ⟨fun c => ⟨seq_reset c, tim_reset c⟩,
    fun s => ⟨_, exec_reset s, clearTrackers_presentNothing_sameTrackers s⟩⟩

/-- Settles O27: the step's operation is not one that `keeps` the category. -/
theorem trackersAreWrittenOnlyByResetAndTheirOwnFrames :
    Obligations.TrackersAreWrittenOnlyByResetAndTheirOwnFrames :=
  fun s _ _ hstep hkeeps => step_agreeOn s hstep hkeeps

/-- Settles O32: the writes commute, and neither unit reads what the other writes. -/
theorem unitOrderChangesNothing : Obligations.UnitOrderChangesNothing := by
  intro c d fn ts s
  refine ⟨seqStep_timStep_comm s c d fn ts, ?_, ?_⟩
  · rw [timStep, seq_setTim]
  · rw [seqStep, tim_setSeq]

end Sys2Proof.Proofs
end

section
/-! PROOF. The payload as its slices (30_encoding.md R65), and the one valid checksum as the two's complement of the
byte sum (41_checksum.md R82). -/

namespace Sys2Proof.Machine

variable (p : PayloadWord)

theorem bytes_append : byte3 p ++ byte2 p ++ byte1 p ++ byte0 p = p := by
  unfold byte0 byte1 byte2 byte3
  rw [extract_append_extract p 16 8 8, extract_append_extract p 8 16 8, extract_append_extract p 0 24 8]
  exact extract_all p

theorem halves_append : hiHalf p ++ loHalf p = p := by
  unfold hiHalf loHalf
  rw [extract_append_extract p 0 16 16]
  exact extract_all p

/-- R82: the checksum completes the byte sum to zero. -/
theorem checksumOk_iff_eq_neg (ck : Byte) : checksumOk p ck = true ↔ ck = -byteSum p := by
  rw [checksumOk, beq_iff_eq, add_comm]
  exact add_eq_zero_iff_eq_neg

/-- R81's `s`, as an integer. -/
theorem byteSum_toNat :
    ((byteSum p).toNat : Int) =
      u8 (p.toNat % 2 ^ 8 + p.toNat / 2 ^ 8 % 2 ^ 8 + p.toNat / 2 ^ 16 % 2 ^ 8 + p.toNat / 2 ^ 24) := by
  have hsum : (byteSum p).toNat =
      ((byte0 p).toNat + (byte1 p).toNat + (byte2 p).toNat + (byte3 p).toNat) % 2 ^ 8 := by
    simp only [byteSum, BitVec.toNat_add, Nat.mod_add_mod]
  rw [hsum, byte0_toNat, byte1_toNat, byte2_toNat, byte3_toNat, u8]
  norm_cast

/-- The two's complement of a byte as an integer. -/
theorem neg_toNat_eq_u8 (b : Byte) : ((-b).toNat : Int) = u8 (256 - b.toNat) := by
  have hlt := b.isLt
  rw [BitVec.toNat_neg, u8]
  omega

end Sys2Proof.Machine

namespace Sys2Proof.Proofs

open Sys2Proof Sys2Proof.Machine

/-- Settles O11: the slices as integers, and neighbouring slices appended. -/
theorem operandsAreTheFixedSlices : Obligations.OperandsAreTheFixedSlices := fun p =>
  ⟨hiHalf_toNat p, loHalf_toNat p, byte0_toNat p, byte1_toNat p, byte2_toNat p, byte3_toNat p, bytes_append p,
    halves_append p⟩

/-- Settles O34: `-byteSum p` is the one valid checksum, and its integer is R82's closed form. -/
theorem exactlyOneChecksumIsValid : Obligations.ExactlyOneChecksumIsValid := by
  intro p
  constructor
  · exact ⟨-byteSum p, (checksumOk_iff_eq_neg p _).2 rfl, fun ck => (checksumOk_iff_eq_neg p ck).1⟩
  · intro ck
    rw [← byteSum_toNat, ← neg_toNat_eq_u8, checksumOk_iff_eq_neg, ← BitVec.toNat_inj, Nat.cast_inj]

end Sys2Proof.Proofs
end

section
/-! PROOF. The gap at forward steps, repeats and regressions (42_sequence.md R92), when the drop count falls (R94), and
what a step can do to the count of a category already seen (R95). -/

namespace Sys2Proof.Machine

/-! ## The gap (R92) -/

/-- A half of `n < 65536` has the value `n`. -/
theorem ofNat_half_toNat {n : Nat} (h : n ≤ 65535) : (BitVec.ofNat 16 n).toNat = n := by
  rw [BitVec.toNat_ofNat]
  exact Nat.mod_eq_of_lt (by omega)

theorem gap_forward (last x : Half) : gap last (last + 1 + x) = x := by
  unfold gap
  ring

theorem gap_repeat_toNat (last : Half) : (gap last last).toNat = 65535 := by
  have hgap : gap last last = -1 := by
    unfold gap
    ring
  rw [hgap]
  rfl

theorem gap_regression_toNat (last : Half) {k : Nat} (hk : 1 ≤ k) (hk' : k ≤ 65535) :
    (gap last (last - BitVec.ofNat 16 k)).toNat = 65535 - k := by
  have hgap : gap last (last - BitVec.ofNat 16 k) = -(BitVec.ofNat 16 k + 1) := by
    unfold gap
    ring
  have hone : BitVec.toNat (1 : Half) = 1 := rfl
  rw [hgap, BitVec.toNat_neg, BitVec.toNat_add, ofNat_half_toNat hk', hone]
  omega

/-! ## The count (R91, R94) -/

/-- R91 at a later frame of a category, as natural numbers. -/
theorem nextDrop_toNat_of_seen {q : SequenceState} (hseen : q.seen = true) (fn : Half) :
    (nextDrop q fn).toNat = (q.drop.toNat + (gap q.lastFn fn).toNat) % 65536 := by
  rw [nextDrop, if_pos hseen]
  exact BitVec.toNat_add _ _

/-! ## The count over one step (R95) -/

variable (s : State)

/-- What a step other than RESET does to the Sequence tracker of a category already seen. -/
theorem step_seq_of_seen {c : Recognised} {t : State} (hseen : (s.seq c).seen = true)
    (hreset : isReset s.currentOp = false) (hstep : step s = .next t) :
    (t.seq c).seen = true ∧
    (t.seq c).drop =
      (if isFrameOf c s.currentOp then (s.seq c).drop + gap (s.seq c).lastFn s.currentOp.frame.fn
       else (s.seq c).drop) := by
  cases hframe : isFrameOf c s.currentOp with
  | true =>
    rw [step_eq, nextState_frameOf c _ _ hframe] at hstep
    cases hstep
    rw [processFrame_seq_same, seq_takeOp, nextDrop, if_pos hseen]
    exact ⟨rfl, rfl⟩
  | false =>
    have hkeeps : keeps c s.currentOp = false := by rw [keeps, hreset, hframe, Bool.or_self]
    obtain ⟨hseq, -⟩ := step_agreeOn s hstep hkeeps
    rw [hseq]
    exact ⟨hseen, rfl⟩

end Sys2Proof.Machine

namespace Sys2Proof.Proofs

open Sys2Proof Sys2Proof.Machine

/-- Settles O36: the gap at each kind of step. -/
theorem gapAtTheCorners : Obligations.GapAtTheCorners := by
  intro last k
  refine ⟨fun hk => ?_, gap_repeat_toNat last, fun hk hk' => gap_regression_toNat last hk hk', by decide⟩
  rw [gap_forward, ofNat_half_toNat hk]

/-- Settles O37: the count after the step is the sum modulo 65536, with the gap of each kind of step. -/
theorem dropCountIsMonotonicOnlyWithoutAWrap : Obligations.DropCountIsMonotonicOnlyWithoutAWrap := by
  intro c fn ts p ck s hseen
  refine ⟨_, exec_procOf c s fn ts p ck, ?_⟩
  rw [processFrame_seq_same]
  dsimp only
  rw [nextDrop_toNat_of_seen hseen]
  have hgap := (gap (s.seq c).lastFn fn).isLt
  have hdrop := (s.seq c).drop.isLt
  refine ⟨by omega, fun k hk hfn => ?_, fun hfn hpos => ?_, fun k hk hk' hfn => ?_⟩
  · rw [hfn, gap_forward, ofNat_half_toNat (by omega)]
    omega
  · rw [hfn, gap_repeat_toNat]
    omega
  · rw [hfn, gap_regression_toNat _ hk (by omega)]
    omega

/-- Settles O38: `step_seq_of_seen`, and the gap from 65535 to 0 is 0. -/
theorem nothingButResetStartsACountAgain : Obligations.NothingButResetStartsACountAgain := by
  intro c s t hseen hreset hstep
  obtain ⟨hseen', hdrop⟩ := step_seq_of_seen s hseen hreset hstep
  refine ⟨hseen', hdrop, fun hlast hfn => ?_⟩
  have hwrap : gap 65535 0 = 0 := by decide
  rw [hdrop, hlast, hfn, hwrap, add_zero, ite_self]

end Sys2Proof.Proofs
end

section
/-! PROOF. The Timing Validator at forward and backward steps of the timestamp (43_timing.md R103). -/

namespace Sys2Proof.Machine

theorem delta_forward (last x : Half) : delta last (last + x) = x := by
  unfold delta
  ring

/-- A backward step of `k` is a forward step of `65536 - k`. -/
theorem delta_backward_toNat (last : Half) {k : Nat} (hk : 1 ≤ k) (hk' : k ≤ 65535) :
    (delta last (last - BitVec.ofNat 16 k)).toNat = 65536 - k := by
  have hdelta : delta last (last - BitVec.ofNat 16 k) = -BitVec.ofNat 16 k := by
    unfold delta
    ring
  rw [hdelta, BitVec.toNat_neg, ofNat_half_toNat hk']
  omega

/-- R102 at a forward step: the step itself is compared with the window. -/
theorem timingOk_forward_iff (c : Recognised) (last : Half) {k : Nat} (hk : k ≤ 65535) :
    timingOk c ⟨last, true⟩ (last + BitVec.ofNat 16 k) = true ↔ (lo c).toNat ≤ k ∧ k ≤ (hi c).toNat := by
  rw [timingOk, if_pos rfl, delta_forward, inWindow_iff, ofNat_half_toNat hk]

/-- R102 at a backward step. -/
theorem timingOk_backward_iff (c : Recognised) (last : Half) {k : Nat} (hk : 1 ≤ k) (hk' : k ≤ 65535) :
    timingOk c ⟨last, true⟩ (last - BitVec.ofNat 16 k) = true ↔
      (lo c).toNat ≤ 65536 - k ∧ 65536 - k ≤ (hi c).toNat := by
  rw [timingOk, if_pos rfl, inWindow_iff, delta_backward_toNat last hk hk']

/-- R26: the bounds as numbers. -/
theorem lo_pos_toNat : (lo .pos).toNat = 23 := rfl

theorem hi_pos_toNat : (hi .pos).toNat = 27 := rfl

theorem lo_vel_toNat : (lo .vel).toNat = 47 := rfl

theorem hi_vel_toNat : (hi .vel).toNat = 53 := rfl

end Sys2Proof.Machine

namespace Sys2Proof.Proofs

open Sys2Proof Sys2Proof.Machine

/-- Settles O42: a forward step of `k` and a backward step of `k`, the latter as one of `65536 - k`, against the numbers
of the two windows. -/
theorem timingAtTheCorners : Obligations.TimingAtTheCorners := by
  intro last k hk
  have hforward c := timingOk_forward_iff c last hk
  have hbackward (h : 1 ≤ k) c := timingOk_backward_iff c last h hk
  refine ⟨hforward .pos, hforward .vel, fun h h' c => ?_, fun h h' => ?_, fun h h' => ?_⟩
  · rw [← Bool.not_eq_true, hbackward h]
    cases c with
    | pos => rw [lo_pos_toNat, hi_pos_toNat]; omega
    | vel => rw [lo_vel_toNat, hi_vel_toNat]; omega
  all_goals
    rw [← Bool.not_eq_true, hbackward (by omega), hbackward (by omega), lo_pos_toNat, hi_pos_toNat, lo_vel_toNat,
      hi_vel_toNat]
    omega

end Sys2Proof.Proofs
end

section
/-! PROOF. Streams. What an operation does, as one form for all states; then the responses in order (20_memory.md R44,
R51), one frame of a category after another (70_reset_and_hazards.md R175), and what a stream's responses do not depend
on: other categories (45_frame_processor.md R138), frames exchanged (R176), an earlier run (R174), fields of unseen
trackers (10_state.md R33). -/

namespace Sys2Proof.Machine

/-! ## An operation, uniformly in the state -/

section Operation

variable (p : OpPort)

/-- The port alone decides which of the four things the operation does, in whatever state it meets. -/
theorem nextState_uniform :
    (isReset p = true ∧ ∀ s, nextState p s = (clearTrackers s).presentNothing) ∨
    (∀ s, nextState p s = s.presentNothing) ∨
    (∃ c, isFrameOf c p = true ∧ ∀ s, nextState p s = processFrame c p.frame s) ∨
    (∀ s, nextState p s = s.presentDiagnostic ⟨diagUnknownId, p.frame.id⟩) := by
  rcases nextState_cases .reset p with ⟨hreset, -⟩ | ⟨hreset, hvalid, -⟩ | ⟨c, hframe, -, -⟩ | ⟨hunknown, hcat, -⟩
  · exact .inl ⟨hreset, fun s => nextState_of_rst s hreset⟩
  · have hrst : p.rst = false := hreset
    exact .inr (.inl fun s => by simp [nextState, hrst, hvalid])
  · exact .inr (.inr (.inl ⟨c, hframe, fun s => nextState_frameOf c s p hframe⟩))
  · simp only [isUnknownFrame, Bool.and_eq_true, Bool.not_eq_true'] at hunknown
    obtain ⟨⟨hrst, hvalid⟩, -⟩ := hunknown
    exact .inr (.inr (.inr fun s => by simp [nextState, hrst, hvalid, hcat]))

/-- A frame is of one category. -/
theorem isFrameOf_unique {c d : Recognised} (hc : isFrameOf c p = true) (hd : isFrameOf d p = true) : c = d := by
  simp only [isFrameOf, Bool.and_eq_true, beq_iff_eq] at hc hd
  obtain ⟨-, hc⟩ := hc
  obtain ⟨-, hd⟩ := hd
  have hcat : c.category = d.category := hc.symm.trans hd
  exact catCode_injective c d (congrArg catCode hcat)

/-- A frame is no RESET. -/
theorem isReset_of_isFrameOf {c : Recognised} (h : isFrameOf c p = true) : isReset p = false := by
  simp only [isFrameOf, Bool.and_eq_true, Bool.not_eq_true'] at h
  obtain ⟨⟨hrst, -⟩, -⟩ := h
  exact hrst

theorem keeps_other_of_isFrameOf {c : Recognised} (h : isFrameOf c p = true) : keeps (other c) p = false := by
  have hother : isFrameOf (other c) p = false := by
    rw [← Bool.not_eq_true]
    exact fun h' => other_ne c (isFrameOf_unique p h' h)
  rw [keeps, isReset_of_isFrameOf p h, hother, Bool.or_self]

/-- An operation keeps two states in agreement on a category. -/
theorem nextState_agreeOn_of_agreeOn {c : Recognised} {s t : State} (h : AgreeOn c s t) :
    AgreeOn c (nextState p s) (nextState p t) := by
  rcases nextState_uniform p with ⟨-, hp⟩ | hp | ⟨d, -, hp⟩ | hp
  · simp [AgreeOn, hp]
  · simpa [AgreeOn, hp] using h
  · rw [hp, hp]
    rcases eq_or_eq_other d c with rfl | rfl
    · exact processFrame_agreeOn_of_agreeOn c p.frame h
    · simpa [AgreeOn] using h
  · simpa [AgreeOn, hp] using h

end Operation

/-! ## Responses in order (R44, R51) -/

/-- What one operation presents, of its own frame. -/
theorem nextState_ports_fields (p : OpPort) (s : State) :
    ((nextState p s).recPort.map (fun q => (q.id, q.fn, q.ts)), (nextState p s).diagPort) =
      (if isFrameOf .pos p || isFrameOf .vel p then some (p.frame.id, p.frame.fn, p.frame.ts) else none,
       if isUnknownFrame p then some ⟨0x01, p.frame.id⟩ else none) := by
  obtain ⟨hrecord, hdiagnostic⟩ := Prod.mk.inj (nextState_ports_isSome s p)
  rw [← hrecord, ← hdiagnostic]
  rcases nextState_uniform p with ⟨-, hp⟩ | hp | ⟨c, -, hp⟩ | hp
  · simp [hp]
  · simp [hp]
  · simp [hp, assembleRecord]
  · simp [hp, diagUnknownId]

/-! ## One category over a stream (R138, R176) -/

section Isolation

variable (c : Recognised)

/-- RESET adds no record. -/
theorem recordsOf_cons_reset {p : OpPort} (ops : List OpPort) (s : State) (h : isReset p = true) :
    recordsOf c (responsesTo (p :: ops) s) = recordsOf c (responsesTo ops (nextState p s)) := by
  rw [responsesTo_cons, nextState_of_rst s h]
  rfl

/-- A RESET or a frame of `c` at the front adds the same records of `c` in states that agree on `c`. -/
theorem recordsOf_cons_congr {p : OpPort} {xs ys : List OpPort} {s t : State} (hkeeps : keeps c p = true)
    (hagree : AgreeOn c s t)
    (hrest : recordsOf c (responsesTo xs (nextState p s)) = recordsOf c (responsesTo ys (nextState p t))) :
    recordsOf c (responsesTo (p :: xs) s) = recordsOf c (responsesTo (p :: ys) t) := by
  rw [keeps, Bool.or_eq_true] at hkeeps
  rcases hkeeps with hreset | hframe
  · rw [recordsOf_cons_reset c xs s hreset, recordsOf_cons_reset c ys t hreset, hrest]
  · rw [nextState_frameOf c s p hframe, nextState_frameOf c t p hframe] at hrest
    obtain ⟨hseq, htim⟩ := hagree
    rw [recordsOf_cons_frame c s p xs hframe, recordsOf_cons_frame c t p ys hframe, hrest,
      assembleRecord_congr c p.frame s t hseq htim]

/-- R138, from states that agree on the category. -/
theorem recordsOf_filter_keeps (ops : List OpPort) {s t : State} (h : AgreeOn c s t) :
    recordsOf c (responsesTo ops s) = recordsOf c (responsesTo (ops.filter (keeps c)) t) := by
  induction ops generalizing s t with
  | nil => rfl
  | cons p ops ih =>
    cases hkeeps : keeps c p with
    | true =>
      rw [List.filter_cons_of_pos hkeeps]
      exact recordsOf_cons_congr c hkeeps h (ih (nextState_agreeOn_of_agreeOn p h))
    | false =>
      rw [List.filter_cons_of_neg (by simp [hkeeps]), recordsOf_cons_skip c s p ops hkeeps]
      obtain ⟨hseq, htim⟩ := nextState_agreeOn c s p hkeeps
      exact ih ⟨hseq.trans h.1, htim.trans h.2⟩

/-- A frame of `c` and one of the other category leave the same stream of the operations that `d` keeps, in either
order. -/
theorem filter_keeps_exchange (d : Recognised) (xs ys : List OpPort) {p q : OpPort} (hp : isFrameOf c p = true)
    (hq : isFrameOf (other c) q = true) :
    (xs ++ p :: q :: ys).filter (keeps d) = (xs ++ q :: p :: ys).filter (keeps d) := by
  have hone : keeps d p = false ∨ keeps d q = false := by
    rcases eq_or_eq_other c d with rfl | rfl
    · have hback : other (other d) = d := by cases d <;> rfl
      exact .inr (hback ▸ keeps_other_of_isFrameOf q hq)
    · exact .inl (keeps_other_of_isFrameOf p hp)
  rw [List.filter_append, List.filter_append]
  rcases hone with h | h <;> simp [List.filter_cons, h]

end Isolation

/-! ## A frame after others of its category or none (R104, R175) -/

/-- After any operations that are neither RESET nor a frame of `c`, a frame of `c` adds the only record of `c`, made of
the trackers of `c` as they were before all of them. -/
theorem recordsOf_append_frame (c : Recognised) (s : State) {before : List OpPort} {p : OpPort}
    (hbefore : ∀ q ∈ before, keeps c q = false) (hp : isFrameOf c p = true) :
    recordsOf c (responsesTo (before ++ [p]) s) = [assembleRecord c p.frame s] := by
  obtain ⟨t, ⟨hseq, htim⟩, hskip⟩ := recordsOf_append_skip c s before [p] hbefore
  rw [hskip, recordsOf_cons_frame c t p [] hp, assembleRecord_congr c p.frame t s hseq htim]
  rfl

/-! ## Trackers that no output can show (R33) -/

section Alike

/-- An unseen Sequence tracker's fields are not read. -/
theorem SequenceState.Alike.nextDrop_eq {q q' : SequenceState} (h : q.Alike q') (fn : Half) :
    nextDrop q fn = nextDrop q' fn := by
  rcases h with rfl | ⟨hq, hq'⟩
  · rfl
  · simp [nextDrop, hq, hq']

/-- Nor are an unseen Timing tracker's. -/
theorem TimingState.Alike.timingOk_eq {t t' : TimingState} (h : t.Alike t') (c : Recognised) (ts : Half) :
    timingOk c t ts = timingOk c t' ts := by
  rcases h with rfl | ⟨ht, ht'⟩
  · rfl
  · simp [timingOk, ht, ht']

variable {s t : State} (h : Alike s t)
include h

theorem Alike.assembleRecord_eq (c : Recognised) (f : Frame) : assembleRecord c f s = assembleRecord c f t := by
  obtain ⟨hseq, htim⟩ := h c
  simp only [assembleRecord, hseq.nextDrop_eq, htim.timingOk_eq]

/-- An operation presents the same in two states that are alike. -/
theorem Alike.nextState_ports (p : OpPort) :
    (nextState p s).recPort = (nextState p t).recPort ∧ (nextState p s).diagPort = (nextState p t).diagPort := by
  rcases nextState_uniform p with ⟨-, hp⟩ | hp | ⟨c, -, hp⟩ | hp
  · simp [hp]
  · simp [hp]
  · simp [hp, h.assembleRecord_eq]
  · simp [hp]

/-- And leaves them alike. -/
theorem Alike.nextState (p : OpPort) : Alike (nextState p s) (nextState p t) := by
  intro c
  rcases nextState_uniform p with ⟨-, hp⟩ | hp | ⟨d, -, hp⟩ | hp
  · simp [hp, SequenceState.Alike, TimingState.Alike]
  · simpa [hp] using h c
  · rcases eq_or_eq_other d c with rfl | rfl
    · obtain ⟨hseq, -⟩ := h c
      simp [hp, SequenceState.Alike, TimingState.Alike, hseq.nextDrop_eq]
    · simpa [hp] using h (other d)
  · simpa [hp] using h c

theorem Alike.responsesTo_eq (ops : List OpPort) : responsesTo ops s = responsesTo ops t := by
  induction ops generalizing s t with
  | nil => rfl
  | cons p ops ih =>
    obtain ⟨hrecord, hdiagnostic⟩ := h.nextState_ports p
    rw [responsesTo_cons, responsesTo_cons, hrecord, hdiagnostic, ih (h.nextState p)]

end Alike

/-! ## Unknown frames and IDLE steps (R138, R156) -/

section Trace

variable {s t : State}

theorem SameTrackers.alike (h : SameTrackers s t) : Alike s t := by
  intro c
  obtain ⟨hseq, htim⟩ := (sameTrackers_iff s t).1 h c
  exact ⟨.inl hseq, .inl htim⟩

theorem SameTrackers.nextState (h : SameTrackers s t) (p : OpPort) :
    SameTrackers (nextState p s) (nextState p t) := by
  rw [sameTrackers_iff] at h ⊢
  exact fun c => nextState_agreeOn_of_agreeOn p (h c)

theorem recordsIn_cons (r : Response) (rs : List Response) : recordsIn (r :: rs) = r.1.toList ++ recordsIn rs := by
  rcases r with ⟨_ | _, _⟩ <;> rfl

/-- An Unknown frame or an IDLE step writes no tracker and presents no record. -/
theorem nextState_of_not_keepsAny {p : OpPort} (h : keepsAny p = false) (s : State) :
    SameTrackers (nextState p s) s ∧ (nextState p s).recPort = none := by
  simp only [keepsAny, Bool.or_eq_false_iff] at h
  obtain ⟨⟨hreset, hpos⟩, hvel⟩ := h
  constructor
  · rw [sameTrackers_iff]
    intro c
    cases c with
    | pos => exact nextState_agreeOn .pos s p (by rw [keeps, hreset, hpos, Bool.or_self])
    | vel => exact nextState_agreeOn .vel s p (by rw [keeps, hreset, hvel, Bool.or_self])
  · have hsome : (nextState p s).recPort.isSome = false := by
      rw [(Prod.mk.inj (nextState_ports_isSome s p)).1, hpos, hvel, Bool.or_self]
    exact Option.isNone_iff_eq_none.1 (by rw [← Option.not_isSome, hsome, Bool.not_false])

/-- R138's second sentence and R156, from states with the same trackers. -/
theorem filter_keepsAny_leaves_no_trace (ops : List OpPort) (h : SameTrackers s t) :
    recordsIn (responsesTo ops s) = recordsIn (responsesTo (ops.filter keepsAny) t) ∧
    SameTrackers (stateAfter ops s) (stateAfter (ops.filter keepsAny) t) := by
  induction ops generalizing s t with
  | nil => exact ⟨rfl, h⟩
  | cons p ops ih =>
    rw [responsesTo_cons, recordsIn_cons]
    cases hkeeps : keepsAny p with
    | true =>
      obtain ⟨hrecord, -⟩ := h.alike.nextState_ports p
      rw [List.filter_cons_of_pos hkeeps, responsesTo_cons, recordsIn_cons, hrecord, List.append_cancel_left_eq]
      exact ih (h.nextState p)
    | false =>
      obtain ⟨htrackers, hnone⟩ := nextState_of_not_keepsAny hkeeps s
      rw [List.filter_cons_of_neg (by simp [hkeeps]), hnone]
      exact ih (htrackers.trans h)

end Trace

/-! ## RESET (R174) -/

/-- The states that RESET leaves differ only in what the host is still to present. -/
theorem nextState_reset_withStream {p : OpPort} (h : isReset p = true) (s t : State) :
    nextState p s = (nextState p t).withStream s.opStream := by
  rw [nextState_of_rst s h, nextState_of_rst t h]
  rfl

end Sys2Proof.Machine

namespace Sys2Proof.Proofs

open Sys2Proof Sys2Proof.Machine

/-- Settles O16, by induction on the stream: each step presents the fields of its own operation's frame. -/
theorem responsesLeaveInInputOrder : Obligations.ResponsesLeaveInInputOrder := by
  intro ops s
  induction ops generalizing s with
  | nil => rfl
  | cons p ops ih => rw [responsesTo_cons, List.map_cons, List.map_cons, nextState_ports_fields, ih]

/-- Settles O39: the one record is made of trackers with `seen` = 0. -/
theorem firstFrameIsOnTimeWithNoDrop : Obligations.FirstFrameIsOnTimeWithNoDrop := by
  intro c s before p hseq htim hbefore hp
  refine ⟨_, recordsOf_append_frame c s hbefore hp, ?_, ?_⟩
  · simp [assembleRecord, nextDrop, hseq]
  · simp [assembleRecord, timingOk, htim]

/-- Settles O43: the second record is made of the trackers that the first frame wrote. -/
theorem nextFrameOfACategorySeesTheLastOne : Obligations.NextFrameOfACategorySeesTheLastOne := by
  intro c s p q between hp hq hbetween
  refine ⟨assembleRecord c p.frame s, assembleRecord c q.frame (processFrame c p.frame s), ?_, ?_, ?_⟩
  · rw [recordsOf_cons_frame c s p _ hp, recordsOf_append_frame c _ hbetween hq]
  · simp only [assembleRecord, processFrame_seq_same]
    exact nextDrop_toNat ⟨p.frame.fn, _, true⟩ q.frame.fn
  · simp only [assembleRecord, processFrame_tim_same]
    simpa using timingOk_iff c ⟨p.frame.ts, true⟩ q.frame.ts

/-- Settles O53: `recordsOf_filter_keeps` from one state. -/
theorem categoriesAreIsolatedOverAStream : Obligations.CategoriesAreIsolatedOverAStream :=
  fun c ops _ => recordsOf_filter_keeps c ops ⟨rfl, rfl⟩

/-- Settles O54: both streams run to their ends, whose trackers `filter_keepsAny_leaves_no_trace` compares. -/
theorem unknownFramesAndIdleStepsLeaveNoTrace : Obligations.UnknownFramesAndIdleStepsLeaveNoTrace := by
  intro ops s
  obtain ⟨hrecords, htrackers⟩ := filter_keepsAny_leaves_no_trace ops (s := s) ⟨rfl, rfl, rfl, rfl⟩
  exact ⟨_, _, hrecords, outcomeOf_eq s ops, outcomeOf_eq s (ops.filter keepsAny), htrackers⟩

/-- Settles O55, by O53: with only the operations that the category keeps, both streams are the same one. -/
theorem framesOfDifferentCategoriesCommute : Obligations.FramesOfDifferentCategoriesCommute := by
  intro c d xs ys p q s hp hq
  rw [categoriesAreIsolatedOverAStream d (xs ++ p :: q :: ys), filter_keeps_exchange c d xs ys hp hq,
    ← categoriesAreIsolatedOverAStream]

/-- Settles O56: after RESET the two runs differ only in a stream that the operations presented replace. -/
theorem resetSeparatesRuns : Obligations.ResetSeparatesRuns := by
  intro p ops s t hreset
  have hnext : nextState p s = (nextState p t).withStream s.opStream := nextState_reset_withStream hreset s t
  constructor
  · rw [responsesTo_cons, responsesTo_cons, hnext, responsesTo_withStream, recPort_withStream, diagPort_withStream]
  · rw [outcomeOf_cons, outcomeOf_cons, hnext, outcomeOf_withStream]

/-- Settles O57, by induction on the stream: states that are alike present the same and stay alike. -/
theorem staleTrackerFieldsAreUnobservable : Obligations.StaleTrackerFieldsAreUnobservable :=
  fun ops _ _ h => h.responsesTo_eq ops

end Sys2Proof.Proofs
end

section
/-! PROOF. The tracker state as a word of 100 bits (10_state.md R31): each tracker is the one its word's slices make up,
and the word determines it. -/

namespace Sys2Proof.Machine

/-- The Sequence tracker of 33 bits, each field where the word holds it. -/
def SequenceState.ofWord (w : BitVec 33) : SequenceState where
  lastFn := w.extractLsb' 17 16
  drop := w.extractLsb' 1 16
  seen := w.getLsbD 0

/-- The Timing tracker of 17 bits. -/
def TimingState.ofWord (w : BitVec 17) : TimingState where
  lastTs := w.extractLsb' 1 16
  seen := w.getLsbD 0

/-- The state of 100 tracker bits, with nothing presented and nothing to come. -/
def State.ofTrackerWord (w : BitVec 100) : State where
  seqPos := .ofWord (w.extractLsb' 67 33)
  timPos := .ofWord (w.extractLsb' 50 17)
  seqVel := .ofWord (w.extractLsb' 17 33)
  timVel := .ofWord (w.extractLsb' 0 17)
  recPort := none
  diagPort := none
  opStream := []

theorem SequenceState.word_ofWord (w : BitVec 33) : (SequenceState.ofWord w).word = w := by
  unfold SequenceState.ofWord SequenceState.word
  rw [ofBool_getLsbD, extract_append_extract w 1 16 16, extract_append_extract w 0 32 1]
  exact extract_all w

theorem TimingState.word_ofWord (w : BitVec 17) : (TimingState.ofWord w).word = w := by
  unfold TimingState.ofWord TimingState.word
  rw [ofBool_getLsbD, extract_append_extract w 0 16 1]
  exact extract_all w

theorem State.trackerWord_ofTrackerWord (w : BitVec 100) : (State.ofTrackerWord w).trackerWord = w := by
  unfold State.ofTrackerWord State.trackerWord
  rw [SequenceState.word_ofWord, SequenceState.word_ofWord, TimingState.word_ofWord, TimingState.word_ofWord,
    extract_append_extract w 50 33 17, extract_append_extract w 17 50 33, extract_append_extract w 0 83 17]
  exact extract_all w

theorem SequenceState.word_injective : Function.Injective SequenceState.word := by
  rintro ⟨_, _, _⟩ ⟨_, _, _⟩ h
  obtain ⟨h, hseen⟩ := append_parts_eq h
  obtain ⟨hlast, hdrop⟩ := append_parts_eq h
  exact (SequenceState.mk.injEq ..).mpr ⟨hlast, hdrop, BitVec.ofBool_eq_iff_eq.mp hseen⟩

theorem TimingState.word_injective : Function.Injective TimingState.word := by
  rintro ⟨_, _⟩ ⟨_, _⟩ h
  obtain ⟨hlast, hseen⟩ := append_parts_eq h
  exact (TimingState.mk.injEq ..).mpr ⟨hlast, BitVec.ofBool_eq_iff_eq.mp hseen⟩

theorem sameTrackers_of_trackerWord_eq {s t : State} (h : s.trackerWord = t.trackerWord) : SameTrackers s t := by
  obtain ⟨h, htimVel⟩ := append_parts_eq h
  obtain ⟨h, hseqVel⟩ := append_parts_eq h
  obtain ⟨hseqPos, htimPos⟩ := append_parts_eq h
  exact ⟨SequenceState.word_injective hseqPos, SequenceState.word_injective hseqVel,
    TimingState.word_injective htimPos, TimingState.word_injective htimVel⟩

end Sys2Proof.Machine

namespace Sys2Proof.Proofs

open Sys2Proof Sys2Proof.Machine

/-- Settles O60: the word determines the trackers, and every word is that of `State.ofTrackerWord`. -/
theorem trackerStateIsExactly100Bits : Obligations.TrackerStateIsExactly100Bits :=
  ⟨fun _ _ => sameTrackers_of_trackerWord_eq, fun w => ⟨_, State.trackerWord_ofTrackerWord w⟩⟩

end Sys2Proof.Proofs
end

section
/-! PROOF. Rounding to the nearest integer with ties to even (44_payload.md R111), on rationals: `roundHalfEven m` is
the integer nearest to `m`, and an even one where two are as near. -/

namespace Sys2Proof.Machine

/-- The error of the rounding, and what an error of one half means. -/
theorem abs_roundHalfEven_sub (m : ℚ) :
    |(roundHalfEven m : ℚ) - m| ≤ 1 / 2 ∧ (|(roundHalfEven m : ℚ) - m| = 1 / 2 → roundHalfEven m % 2 = 0) := by
  have hnonneg := Int.fract_nonneg m
  have hsplit := Int.floor_add_fract m
  unfold roundHalfEven
  split
  case isTrue h =>
    have herror : ((⌊m⌋ + 1 : ℤ) : ℚ) - m = 1 - Int.fract m := by
      push_cast
      linarith
    have hlt := Int.fract_lt_one m
    rw [herror, abs_of_nonneg (by linarith)]
    rcases h with habove | ⟨hhalf, hodd⟩
    · exact ⟨by linarith, fun h => by linarith⟩
    · exact ⟨by linarith, fun _ => by omega⟩
  case isFalse h =>
    rw [not_or, not_and, not_lt] at h
    obtain ⟨hbelow, heven⟩ := h
    have herror : ((⌊m⌋ + 0 : ℤ) : ℚ) - m = -Int.fract m := by
      push_cast
      linarith
    rw [herror, abs_neg, abs_of_nonneg hnonneg]
    refine ⟨hbelow, fun h => ?_⟩
    have := heven h
    omega

/-- Two different integers are at least 1 apart, so their errors sum to at least 1. -/
theorem one_le_error_sum {j k : ℤ} (m : ℚ) (h : k ≠ j) : 1 ≤ |(j : ℚ) - m| + |(k : ℚ) - m| := by
  have hapart : (1 : ℚ) ≤ |(k : ℚ) - j| := by exact_mod_cast Int.one_le_abs (sub_ne_zero.2 h)
  have htriangle : |(k : ℚ) - j| ≤ |(k : ℚ) - m| + |m - j| := abs_sub_le _ _ _
  rw [abs_sub_comm m] at htriangle
  linarith

theorem roundHalfEven_nearest (m : ℚ) (k : ℤ) : |(roundHalfEven m : ℚ) - m| ≤ |(k : ℚ) - m| := by
  by_cases h : k = roundHalfEven m
  · rw [h]
  · have := (abs_roundHalfEven_sub m).1
    have := one_le_error_sum m h
    linarith

theorem roundHalfEven_even_of_tie {m : ℚ} {k : ℤ} (hne : k ≠ roundHalfEven m)
    (htie : |(roundHalfEven m : ℚ) - m| = |(k : ℚ) - m|) : roundHalfEven m % 2 = 0 := by
  obtain ⟨hle, heven⟩ := abs_roundHalfEven_sub m
  have := one_le_error_sum m hne
  exact heven (by linarith)

/-- An integer nearer than one half is the rounded value. -/
theorem roundHalfEven_eq_of_near {m : ℚ} {k : ℤ} (h : |(k : ℚ) - m| < 1 / 2) : roundHalfEven m = k := by
  by_contra hne
  have := (abs_roundHalfEven_sub m).1
  have := one_le_error_sum m hne
  linarith

theorem roundHalfEven_intCast (k : ℤ) : roundHalfEven k = k := roundHalfEven_eq_of_near (by simp)

/-- The rounding keeps to integer bounds. -/
theorem le_roundHalfEven {k : ℤ} {m : ℚ} (h : k ≤ m) : k ≤ roundHalfEven m := by
  have hnear := roundHalfEven_nearest m k
  rw [abs_sub_comm (k : ℚ), abs_of_nonneg (sub_nonneg.2 h), abs_le] at hnear
  exact_mod_cast (by linarith : (k : ℚ) ≤ roundHalfEven m)

theorem roundHalfEven_le {k : ℤ} {m : ℚ} (h : m ≤ k) : roundHalfEven m ≤ k := by
  have hnear := roundHalfEven_nearest m k
  rw [abs_of_nonneg (sub_nonneg.2 h), abs_le] at hnear
  exact_mod_cast (by linarith : (roundHalfEven m : ℚ) ≤ k)

end Sys2Proof.Machine
end

section
/-! PROOF. What `rne32` answers, as a rounded significand and an exponent (44_payload.md R111), and the number it stands
for: nearest to the exact rational among all finite binary32 numbers. -/

namespace Sys2Proof.Machine

/-! ## The pattern of a rounded significand -/

/-- The pattern of a rounded significand `M` from `2^23` to `2^24`: where the rounding carried out of the significand,
R111 takes `2^23` at the next exponent. -/
def packRounded (s : Bool) (M e : Int) : FloatBits :=
  if M = 2 ^ 24 then packBinary32 s (2 ^ 23) (e + 1) else packBinary32 s M.toNat e

/-- R67's bias puts the exponents of the normal range strictly between 0 and 255. -/
theorem biasedExponent_ne {e : Int} (he : -126 ≤ e) (he' : e ≤ 127) :
    BitVec.ofInt 8 (e + 127) ≠ 0 ∧ BitVec.ofInt 8 (e + 127) ≠ 255 := by
  have hzero : BitVec.toNat (0 : BitVec 8) = 0 := rfl
  have hlast : BitVec.toNat (255 : BitVec 8) = 255 := rfl
  rw [ne_eq, ne_eq, ← BitVec.toNat_inj, ← BitVec.toNat_inj, BitVec.toNat_ofInt, hzero, hlast]
  omega

section Packed

variable {s : Bool} {M e : Int} (hM : 2 ^ 23 ≤ M) (hM' : M ≤ 2 ^ 24) (he : -126 ≤ e) (he' : e ≤ 126)
include hM hM' he he'

/-- A carry changes the pattern and not the number. -/
theorem floatValue_packRounded :
    floatValue (packRounded s M e) = (if s then -1 else 1) * ((M : ℚ) * 2 ^ (e - 23)) := by
  unfold packRounded
  split
  case isTrue hcarry =>
    rw [floatValue_packBinary32 s (2 ^ 23) (e + 1) (by norm_num) (by norm_num) (by omega) (by omega), hcarry,
      show e + 1 - 23 = e - 23 + 1 by ring, zpow_add₀ (by norm_num)]
    push_cast
    ring
  case isFalse hcarry =>
    obtain ⟨k, rfl⟩ := Int.eq_ofNat_of_zero_le (show 0 ≤ M by omega)
    exact floatValue_packBinary32 s k e (by omega) (by omega) he (by omega)

omit he he' in
/-- The fraction is even where the significand is. -/
theorem floatFrac_packRounded_even (heven : M % 2 = 0) : (floatFrac (packRounded s M e)).toNat % 2 = 0 := by
  unfold packRounded
  split
  · rw [floatFrac_packBinary32]
    rfl
  · rw [floatFrac_packBinary32, BitVec.toNat_ofNat]
    omega

omit hM hM' in
/-- The biased exponent is neither that of the zeros and subnormals nor that of the infinities and NaNs. -/
theorem floatExp_packRounded : floatExp (packRounded s M e) ≠ 0 ∧ floatExp (packRounded s M e) ≠ 255 := by
  unfold packRounded
  split <;> rw [floatExp_packBinary32]
  · exact biasedExponent_ne (by omega) (by omega)
  · exact biasedExponent_ne he (by omega)

end Packed

/-! ## The pattern of a rational -/

/-- R111 with `e` read off any interval `2^e <= |q| <= 2^(e+1)`, the upper end included: there the significand `2^24`
at `e` is the significand `2^23` at `e + 1`. -/
theorem rne32_eq_packRounded {num : Int} {den : Nat} {e : Int} (hnum : num ≠ 0) (hden : 0 < den)
    (hlow : (2 : ℚ) ^ e ≤ |(num : ℚ) / den|) (hhigh : |(num : ℚ) / den| ≤ (2 : ℚ) ^ (e + 1)) :
    rne32 num den = packRounded (decide (num < 0)) (roundHalfEven (|(num : ℚ) / den| * 2 ^ (23 - e))) e := by
  have hpack : rne32 num den =
      packBinary32 (decide (num < 0)) (roundSignificand 24 num.natAbs den).1
        (roundSignificand 24 num.natAbs den).2 := if_neg hnum
  have hpos : 0 < num.natAbs := Int.natAbs_pos.2 hnum
  rw [hpack, packRounded]
  rw [abs_fraction] at *
  rcases hhigh.lt_or_eq with hlt | htop
  · have hexponent := floorLog2_unique _ _ hpos hden e hlow hlt
    rw [roundSignificand_24_eq _ _ hden rfl, hexponent]
    split <;> rfl
  · have hexponent : floorLog2 num.natAbs den = e + 1 := by
      refine floorLog2_unique _ _ hpos hden (e + 1) htop.ge ?_
      rw [htop]
      exact zpow_lt_zpow_right₀ (by norm_num) (by omega)
    have hsignificand : (num.natAbs : ℚ) / den * 2 ^ (23 - (e + 1)) = ((2 ^ 23 : ℤ) : ℚ) := by
      rw [htop, ← zpow_add₀ (by norm_num), show e + 1 + (23 - (e + 1)) = 23 by ring]
      norm_num
    have hcarry : (num.natAbs : ℚ) / den * 2 ^ (23 - e) = ((2 ^ 24 : ℤ) : ℚ) := by
      rw [htop, ← zpow_add₀ (by norm_num), show e + 1 + (23 - e) = 24 by ring]
      norm_num
    rw [roundSignificand_24_eq _ _ hden rfl, hexponent, hsignificand, hcarry, roundHalfEven_intCast,
      roundHalfEven_intCast, if_neg (by norm_num), if_pos rfl]
    rfl

theorem rne32_zero (den : Nat) : rne32 0 den = 0 := if_pos rfl

/-- A fraction is zero, and is negative, where its numerator is. -/
theorem fraction_eq_zero_iff {num : Int} {den : Nat} (hden : 0 < den) : (num : ℚ) / den = 0 ↔ num = 0 := by
  have hd : (den : ℚ) ≠ 0 := by exact_mod_cast hden.ne'
  rw [div_eq_zero_iff, or_iff_left hd, Int.cast_eq_zero]

theorem fraction_neg_iff {num : Int} {den : Nat} (hden : 0 < den) : (num : ℚ) / den < 0 ↔ num < 0 := by
  have hd : (0 : ℚ) < den := by exact_mod_cast hden
  rw [div_lt_iff₀ hd, zero_mul, Int.cast_lt_zero]

/-- `rne32` is a function of the rational alone. -/
theorem rne32_congr {num num' : Int} {den den' : Nat} (hden : 0 < den) (hden' : 0 < den')
    (h : (num : ℚ) / den = num' / den') : rne32 num den = rne32 num' den' := by
  have hzero : num = 0 ↔ num' = 0 := by rw [← fraction_eq_zero_iff hden, h, fraction_eq_zero_iff hden']
  have hsign : num < 0 ↔ num' < 0 := by rw [← fraction_neg_iff hden, h, fraction_neg_iff hden']
  by_cases hnum : num = 0
  · rw [hnum, hzero.1 hnum, rne32_zero, rne32_zero]
  · obtain ⟨hlow, hhigh⟩ := floorLog2_spec num.natAbs den (Int.natAbs_pos.2 hnum) hden
    rw [← abs_fraction] at hlow hhigh
    rw [rne32_eq_packRounded hnum hden hlow hhigh.le,
      rne32_eq_packRounded (mt hzero.2 hnum) hden' (h ▸ hlow) (h ▸ hhigh.le), h, decide_eq_decide.2 hsign]

/-! ## The normal range -/

/-- The magnitudes that R111's exponent can hold: from `2^-126` to below `2^127`. -/
def InNormalRange (q : ℚ) : Prop := (2 : ℚ) ^ (-126 : Int) ≤ |q| ∧ |q| < (2 : ℚ) ^ (127 : Int)

theorem InNormalRange.ne_zero {num : Int} {den : Nat} (h : InNormalRange ((num : ℚ) / den)) : num ≠ 0 := by
  rintro rfl
  obtain ⟨hlow, -⟩ := h
  rw [Int.cast_zero, zero_div, abs_zero] at hlow
  exact absurd hlow (not_le.2 (by positivity))

/-- A magnitude in the normal range is a significand from `2^23` to below `2^24` at an exponent from -126 to 126. -/
theorem InNormalRange.exists_scale {q : ℚ} (h : InNormalRange q) :
    ∃ (m : ℚ) (e : Int), |q| = m * 2 ^ (e - 23) ∧ 2 ^ 23 ≤ m ∧ m < 2 ^ 24 ∧ -126 ≤ e ∧ e ≤ 126 := by
  obtain ⟨hlow, hhigh⟩ := h
  have hpos : 0 < |q| := lt_of_lt_of_le (by positivity) hlow
  obtain ⟨e, hle, hlt⟩ := exists_mem_Ico_zpow hpos (by norm_num : (1 : ℚ) < 2)
  have helow := (zpow_lt_zpow_iff_right₀ (by norm_num : (1 : ℚ) < 2)).1 (hlow.trans_lt hlt)
  have hehigh := (zpow_lt_zpow_iff_right₀ (by norm_num : (1 : ℚ) < 2)).1 (hle.trans_lt hhigh)
  have hscale (j k : Int) : (2 : ℚ) ^ j * 2 ^ k = 2 ^ (j + k) := (zpow_add₀ (by norm_num) _ _).symm
  refine ⟨|q| * 2 ^ (23 - e), e, ?_, ?_, ?_, by omega, by omega⟩
  · rw [mul_assoc, hscale, show 23 - e + (e - 23) = 0 by ring, zpow_zero, mul_one]
  · calc (2 : ℚ) ^ 23 = 2 ^ e * 2 ^ (23 - e) := by rw [hscale, add_sub_cancel]; norm_num
      _ ≤ _ := by gcongr
  · calc |q| * 2 ^ (23 - e) < 2 ^ (e + 1) * 2 ^ (23 - e) := by gcongr
      _ = 2 ^ 24 := by rw [hscale, show e + 1 + (23 - e) = 24 by ring]; norm_num

/-- Everything R111 gives for a rational of the normal range, in one place: the significand and the exponent are those
of its magnitude. -/
theorem InNormalRange.exists_rounding {q : ℚ} (h : InNormalRange q) :
    ∃ (m : ℚ) (e : Int), |q| = m * 2 ^ (e - 23) ∧ 2 ^ 23 ≤ m ∧ -126 ≤ e ∧ e ≤ 126 ∧
      2 ^ 23 ≤ roundHalfEven m ∧ roundHalfEven m ≤ 2 ^ 24 ∧
      ∀ {num : Int} {den : Nat}, num ≠ 0 → 0 < den → |(num : ℚ) / den| = |q| →
        rne32 num den = packRounded (decide (num < 0)) (roundHalfEven m) e := by
  obtain ⟨m, e, hq, hlow, hhigh, he, he'⟩ := h.exists_scale
  have hshift : |q| * 2 ^ (23 - e) = m := by
    rw [hq, mul_assoc, ← zpow_add₀ (by norm_num), show e - 23 + (23 - e) = 0 by ring, zpow_zero, mul_one]
  have hscale (k : Int) : (2 : ℚ) ^ (23 + k : Int) * 2 ^ (e - 23) = 2 ^ (e + k) := by
    rw [← zpow_add₀ (by norm_num)]
    congr 1
    ring
  refine ⟨m, e, hq, hlow, he, he', le_roundHalfEven (by exact_mod_cast hlow),
    roundHalfEven_le (by exact_mod_cast hhigh.le), fun hnum hden habs => ?_⟩
  rw [rne32_eq_packRounded (e := e) hnum hden, habs, hshift]
  · calc (2 : ℚ) ^ e = 2 ^ (23 : Int) * 2 ^ (e - 23) := by simpa using (hscale 0).symm
      _ ≤ m * 2 ^ (e - 23) := by gcongr; exact_mod_cast hlow
      _ = _ := by rw [habs, hq]
  · calc _ = m * 2 ^ (e - 23) := by rw [habs, hq]
      _ ≤ 2 ^ (23 + 1 : Int) * 2 ^ (e - 23) := by gcongr; norm_num; exact hhigh.le
      _ = _ := hscale 1

/-- The class of `rne32` in the normal range. -/
theorem floatExp_rne32 {num : Int} {den : Nat} (hden : 0 < den) (h : InNormalRange ((num : ℚ) / den)) :
    floatExp (rne32 num den) ≠ 0 ∧ floatExp (rne32 num den) ≠ 255 := by
  obtain ⟨m, e, -, -, he, he', -, -, hpack⟩ := h.exists_rounding
  rw [hpack h.ne_zero hden rfl]
  exact floatExp_packRounded he he'

/-! ## The binary32 numbers next to a rational -/

/-- A rational is a multiple of the spacing `2^(e-23)`, or of a magnitude below `2^e`. -/
def OnGrid (e : Int) (w : ℚ) : Prop := (∃ k : ℤ, w = k * 2 ^ (e - 23)) ∨ |w| < 2 ^ e

theorem OnGrid.neg {e : Int} {w : ℚ} (h : OnGrid e w) : OnGrid e (-w) := by
  rcases h with ⟨k, rfl⟩ | hsmall
  · exact .inl ⟨-k, by push_cast; ring⟩
  · exact .inr (by rwa [abs_neg])

/-- The magnitude of a pattern. -/
theorem abs_floatValue (x : FloatBits) :
    |floatValue x| =
      if floatExp x = 0 then (floatFrac x).toNat * (2 : ℚ) ^ (-149 : Int)
      else (2 ^ 23 + (floatFrac x).toNat : ℚ) * (2 : ℚ) ^ (((floatExp x).toNat : Int) - 150) := by
  have hsign : |(if floatSign x then -1 else 1 : ℚ)| = 1 := by split <;> simp
  rw [floatValue, abs_mul, hsign, one_mul, abs_of_nonneg]
  split <;> positivity

/-- Every binary32 number is on the grid of every exponent of the normal range. -/
theorem onGrid_floatValue (x : FloatBits) {e : Int} (he : -126 ≤ e) : OnGrid e (floatValue x) := by
  have hmagnitude := abs_floatValue x
  have hfrac : ((floatFrac x).toNat : ℚ) < 2 ^ 23 := by exact_mod_cast (floatFrac x).isLt
  generalize ((floatFrac x).toNat) = f at *
  split at hmagnitude
  case isTrue =>
    right
    calc |floatValue x| = f * (2 : ℚ) ^ (-149 : Int) := hmagnitude
      _ < 2 ^ 23 * (2 : ℚ) ^ (-149 : Int) := by gcongr
      _ = 2 ^ (-126 : Int) := by norm_num
      _ ≤ 2 ^ e := zpow_le_zpow_right₀ (by norm_num) he
  case isFalse =>
    generalize ((floatExp x).toNat : Int) = b at *
    rcases lt_or_ge (b - 127) e with hbelow | habove
    · right
      calc |floatValue x| = (2 ^ 23 + f) * (2 : ℚ) ^ (b - 150) := hmagnitude
        _ < 2 ^ (24 : Int) * (2 : ℚ) ^ (b - 150) := by gcongr; norm_num; linarith
        _ = 2 ^ (b - 126) := by rw [← zpow_add₀ (by norm_num)]; congr 1; ring
        _ ≤ 2 ^ e := zpow_le_zpow_right₀ (by norm_num) (by omega)
    · obtain ⟨j, hj⟩ := Int.eq_ofNat_of_zero_le (show 0 ≤ b - 127 - e by omega)
      have hmultiple : OnGrid e |floatValue x| := by
        refine .inl ⟨(2 ^ 23 + f) * 2 ^ j, ?_⟩
        rw [hmagnitude, show b - 150 = j + (e - 23) by omega, zpow_add₀ (by norm_num), zpow_natCast]
        push_cast
        ring
      rcases abs_choice (floatValue x) with hpos | hneg
      · exact hpos ▸ hmultiple
      · have := hmultiple.neg
        rwa [hneg, neg_neg] at this

/-- Against every number of the grid, the rounded significand is nearest, and even where another is as near. -/
theorem roundHalfEven_nearest_onGrid {m w : ℚ} {e : Int} (hm : 2 ^ 23 ≤ m) (hw : OnGrid e w) :
    |(roundHalfEven m : ℚ) * 2 ^ (e - 23) - m * 2 ^ (e - 23)| ≤ |w - m * 2 ^ (e - 23)| ∧
    (w ≠ roundHalfEven m * 2 ^ (e - 23) →
      |(roundHalfEven m : ℚ) * 2 ^ (e - 23) - m * 2 ^ (e - 23)| = |w - m * 2 ^ (e - 23)| →
      roundHalfEven m % 2 = 0) := by
  have hu : (0 : ℚ) < 2 ^ (e - 23) := by positivity
  have hspacing : (2 : ℚ) ^ e = 2 ^ 23 * 2 ^ (e - 23) := by
    rw [← zpow_natCast, ← zpow_add₀ (by norm_num)]
    congr 1
    push_cast
    ring
  unfold OnGrid at hw
  generalize (2 : ℚ) ^ (e - 23) = u at *
  have herror (a : ℚ) : |a * u - m * u| = |a - m| * u := by rw [← sub_mul, abs_mul, abs_of_pos hu]
  rcases hw with ⟨k, rfl⟩ | hsmall
  · rw [herror, herror]
    refine ⟨mul_le_mul_of_nonneg_right (roundHalfEven_nearest m k) hu.le, fun hne htie => ?_⟩
    refine roundHalfEven_even_of_tie (k := k) (fun hk => hne (by rw [hk])) ?_
    exact mul_right_cancel₀ hu.ne' htie
  · have hfarther : |(roundHalfEven m : ℚ) * u - m * u| < |w - m * u| := by
      have hleast : ((2 ^ 23 : ℤ) : ℚ) = 2 ^ 23 := by norm_num
      have hnear := roundHalfEven_nearest m (2 ^ 23)
      rw [hleast, abs_sub_comm (2 ^ 23), abs_of_nonneg (sub_nonneg.2 hm)] at hnear
      rw [hspacing] at hsmall
      calc |(roundHalfEven m : ℚ) * u - m * u| = |(roundHalfEven m : ℚ) - m| * u := herror _
        _ ≤ (m - 2 ^ 23) * u := by gcongr
        _ < m * u - |w| := by linarith
        _ ≤ m * u - w := by linarith [le_abs_self w]
        _ ≤ |w - m * u| := by rw [abs_sub_comm]; exact le_abs_self _
    exact ⟨hfarther.le, fun _ htie => absurd htie hfarther.ne⟩

/-- A fraction from its sign and its magnitude. -/
theorem fraction_eq_sign_mul_abs (num : Int) {den : Nat} (hden : 0 < den) :
    (num : ℚ) / den = (if decide (num < 0) then -1 else 1) * |(num : ℚ) / den| := by
  by_cases hneg : num < 0
  · rw [abs_of_neg ((fraction_neg_iff hden).2 hneg)]
    simp [hneg]
  · rw [abs_of_nonneg (not_lt.1 (mt (fraction_neg_iff hden).1 hneg))]
    simp [hneg]

/-- R111's purpose, in the normal range: nearest, with ties to even. -/
theorem rne32_nearest {num : Int} {den : Nat} (hden : 0 < den) (h : InNormalRange ((num : ℚ) / den)) (x : FloatBits) :
    |floatValue (rne32 num den) - (num : ℚ) / den| ≤ |floatValue x - (num : ℚ) / den| ∧
    (floatValue x ≠ floatValue (rne32 num den) →
      |floatValue (rne32 num den) - (num : ℚ) / den| = |floatValue x - (num : ℚ) / den| →
      (floatFrac (rne32 num den)).toNat % 2 = 0) := by
  obtain ⟨m, e, hq, hm, he, he', hM, hM', hpack⟩ := h.exists_rounding
  have hgrid := onGrid_floatValue x he
  rw [fraction_eq_sign_mul_abs num hden, hq, hpack h.ne_zero hden rfl, floatValue_packRounded hM hM' he he']
  have hparity := floatFrac_packRounded_even (s := decide (num < 0)) (e := e) hM hM'
  generalize decide (num < 0) = s at *
  cases s with
  | false =>
    simp only [Bool.false_eq_true, if_false, one_mul]
    obtain ⟨hnear, htie⟩ := roundHalfEven_nearest_onGrid hm hgrid
    exact ⟨hnear, fun hne heq => hparity (htie hne heq)⟩
  | true =>
    have hmirror (a b : ℚ) : |-1 * a - -1 * b| = |a - b| := by rw [← mul_sub, abs_mul, abs_neg, abs_one, one_mul]
    have hmirror' (a b : ℚ) : |a - -1 * b| = |-a - b| := by rw [← abs_neg]; congr 1; ring
    obtain ⟨hnear, htie⟩ := roundHalfEven_nearest_onGrid hm hgrid.neg
    simp only [if_true]
    rw [hmirror, hmirror']
    refine ⟨hnear, fun hne heq => hparity (htie (fun h => hne ?_) heq)⟩
    rw [← h]
    ring

end Sys2Proof.Machine

namespace Sys2Proof.Proofs

open Sys2Proof Sys2Proof.Machine

/-- Settles O45: the exponent field is not 255, and `rne32_nearest`, which holds against every pattern's number. -/
theorem roundingIsToNearestWithTiesToEven : Obligations.RoundingIsToNearestWithTiesToEven := by
  intro num den hden hlow hhigh
  have hrange : InNormalRange ((num : ℚ) / den) := ⟨hlow, hhigh⟩
  obtain ⟨-, hfinite⟩ := floatExp_rne32 hden hrange
  exact ⟨bne_iff_ne.2 hfinite, fun x _ => rne32_nearest hden hrange x⟩

end Sys2Proof.Proofs
end

section
/-! PROOF. The decoder's outputs, from the rounding's two general facts: it is monotone, and it keeps signs apart from
magnitudes. Their classes (44_payload.md R117) and their ranges (R118) then follow from the corner values. -/

namespace Sys2Proof.Machine

/-! ## Monotone rounding -/

/-- What `rne32` rounds to a nearest number of binary32: zero, and the normal range. -/
def Roundable (q : ℚ) : Prop := q = 0 ∨ InNormalRange q

theorem floatValue_zero : floatValue 0 = 0 := by
  have hexp : floatExp 0 = 0 := by decide
  have hfrac : (floatFrac 0).toNat = 0 := by decide
  rw [floatValue, if_pos hexp, hfrac, Nat.cast_zero, zero_mul, mul_zero]

theorem floatValue_rne32_nearest {num : Int} {den : Nat} (hden : 0 < den) (h : Roundable ((num : ℚ) / den))
    (x : FloatBits) : |floatValue (rne32 num den) - (num : ℚ) / den| ≤ |floatValue x - (num : ℚ) / den| := by
  rcases h with hzero | hrange
  · rw [(fraction_eq_zero_iff hden).1 hzero, rne32_zero, floatValue_zero, Int.cast_zero, zero_div, sub_zero, abs_zero]
    exact abs_nonneg _
  · exact (rne32_nearest hden hrange x).1

/-- What is nearer to the greater of two numbers lies above their middle. -/
theorem middle_le_of_nearer {a b q : ℚ} (hlt : b < a) (h : |a - q| ≤ |b - q|) : a + b ≤ 2 * q := by
  have hsquares := sq_le_sq.2 h
  have hproduct : (a - b) * (a + b - 2 * q) ≤ 0 := by linarith
  linarith [nonpos_of_mul_nonpos_right hproduct (sub_pos.2 hlt)]

/-- A smaller rational does not round to a greater number: each of the two would be nearer to the other's number. -/
theorem floatValue_rne32_mono {num num' : Int} {den den' : Nat} (hden : 0 < den) (hden' : 0 < den')
    (h : Roundable ((num : ℚ) / den)) (h' : Roundable ((num' : ℚ) / den')) (hle : (num : ℚ) / den ≤ num' / den') :
    floatValue (rne32 num den) ≤ floatValue (rne32 num' den') := by
  rcases hle.eq_or_lt with heq | hlt
  · rw [rne32_congr hden hden' heq]
  · by_contra hgreater
    rw [not_le] at hgreater
    have hnear := middle_le_of_nearer hgreater (floatValue_rne32_nearest hden h (rne32 num' den'))
    have hnear' := middle_le_of_nearer (neg_lt_neg hgreater) (q := -((num' : ℚ) / den')) (by
      rw [neg_sub_neg, neg_sub_neg, abs_sub_comm, abs_sub_comm _ (floatValue (rne32 num den))]
      exact floatValue_rne32_nearest hden' h' (rne32 num den))
    linarith

/-- The magnitude of the result is the result at the magnitude. -/
theorem abs_floatValue_rne32 {num : Int} {den : Nat} (hden : 0 < den) (h : InNormalRange ((num : ℚ) / den)) :
    |floatValue (rne32 num den)| = floatValue (rne32 num.natAbs den) := by
  have habs : |((num.natAbs : Int) : ℚ) / den| = |(num : ℚ) / den| := by
    rw [abs_fraction, abs_fraction, Int.natAbs_natCast]
  have hne : (num.natAbs : Int) ≠ 0 := by exact_mod_cast Int.natAbs_ne_zero.2 h.ne_zero
  have hpositive : decide ((num.natAbs : Int) < 0) = false := decide_eq_false (by omega)
  obtain ⟨m, e, -, -, he, he', hM, hM', hpack⟩ := h.exists_rounding
  have hM0 : (0 : ℚ) ≤ roundHalfEven m := by exact_mod_cast (show 0 ≤ roundHalfEven m by omega)
  rw [hpack h.ne_zero hden rfl, hpack hne hden habs, floatValue_packRounded hM hM' he he',
    floatValue_packRounded hM hM' he he', hpositive, abs_mul,
    abs_of_nonneg (by positivity : 0 ≤ _ * (2 : ℚ) ^ (e - 23))]
  congr 1
  split <;> simp

/-! ## The decoder's quotients -/

/-- A quotient of the decoder is zero or has the magnitudes of R117. -/
def DecoderQuotient (num : Int) (den : Nat) : Prop :=
  0 < den ∧ (num ≠ 0 → (1 : ℚ) / 1000 ≤ |(num : ℚ) / den| ∧ |(num : ℚ) / den| ≤ 65535 / 100)

theorem decoderQuotient_half (h : Half) : DecoderQuotient h.toNat 100 := by
  refine ⟨by norm_num, fun hne => ?_⟩
  have hlow : 1 ≤ h.toNat := by omega
  have hhigh : h.toNat ≤ 65535 := Nat.le_of_lt_succ h.isLt
  have hlow' : (1 : ℚ) ≤ h.toNat := by exact_mod_cast hlow
  have hhigh' : (h.toNat : ℚ) ≤ 65535 := by exact_mod_cast hhigh
  rw [abs_fraction, Int.natAbs_natCast]
  constructor
  · push_cast
    linarith
  · push_cast
    linarith

theorem signedOffset_eq_zero_iff (h : Half) : signedOffset h = 0 ↔ h = 32767 := by
  have hval : BitVec.toNat (32767 : Half) = 32767 := rfl
  rw [← BitVec.toNat_inj, hval, signedOffset, decOffset]
  omega

theorem decoderQuotient_signedOffset (h : Half) : DecoderQuotient (signedOffset h) 1000 := by
  refine ⟨by norm_num, fun hne => ?_⟩
  obtain ⟨hlow, hhigh⟩ := abs_signedOffset_bounds h (mt (signedOffset_eq_zero_iff h).2 hne)
  have hlow' : (1 : ℚ) ≤ |(signedOffset h : ℚ)| := by exact_mod_cast hlow
  have hhigh' : |(signedOffset h : ℚ)| ≤ 32768 := by exact_mod_cast hhigh
  rw [abs_div, Nat.abs_cast]
  constructor
  · push_cast
    linarith
  · push_cast
    linarith

section Quotient

variable {num : Int} {den : Nat} (h : DecoderQuotient num den)
include h

theorem DecoderQuotient.inNormalRange (hne : num ≠ 0) : InNormalRange ((num : ℚ) / den) := by
  obtain ⟨hlow, hhigh⟩ := h.2 hne
  constructor
  · refine le_trans ?_ hlow
    norm_num
  · refine lt_of_le_of_lt hhigh ?_
    norm_num

theorem DecoderQuotient.roundable : Roundable ((num : ℚ) / den) := by
  by_cases hne : num = 0
  · exact .inl ((fraction_eq_zero_iff h.1).2 hne)
  · exact .inr (h.inNormalRange hne)

/-- R117: zero only where the numerator is. -/
theorem DecoderQuotient.rne32_eq_zero_iff : rne32 num den = 0 ↔ num = 0 := by
  constructor
  · intro hzero
    by_contra hne
    obtain ⟨hexp, -⟩ := floatExp_rne32 h.1 (h.inNormalRange hne)
    rw [hzero] at hexp
    exact hexp (by decide)
  · rintro rfl
    exact rne32_zero den

end Quotient

/-- R117's least magnitude, 1/1000, and its greatest, 655.35, with their patterns. -/
theorem decoderQuotient_least : DecoderQuotient 1 1000 := ⟨by norm_num, fun _ => by norm_num [abs_of_pos]⟩

theorem decoderQuotient_greatest : DecoderQuotient 65535 100 := ⟨by norm_num, fun _ => by norm_num [abs_of_pos]⟩

theorem rne32_least : rne32 1 1000 = 0x3A83126F := rne32_signedOffset_0x8000

theorem rne32_greatest : rne32 65535 100 = 0x4423D666 := by decide

/-! ## Classes (R117) -/

/-- R117's list, of one output. -/
def FiniteNormalOrPlusZero (x : FloatBits) : Prop :=
  floatFinite x = true ∧ floatSubnormal x = false ∧ x ≠ 0x80000000 ∧
    (x ≠ 0 → floatValue 0x3A83126F ≤ |floatValue x| ∧ |floatValue x| ≤ floatValue 0x4423D666)

theorem finiteNormalOrPlusZero_zero : FiniteNormalOrPlusZero 0 :=
  ⟨by decide, by decide, by decide, fun h => absurd rfl h⟩

/-- A biased exponent other than 0 and 255 settles the classes, the bounds on the quotient those on the number. -/
theorem DecoderQuotient.finiteNormalOrPlusZero {num : Int} {den : Nat} (h : DecoderQuotient num den) :
    FiniteNormalOrPlusZero (rne32 num den) := by
  by_cases hne : num = 0
  · rw [hne, rne32_zero]
    exact finiteNormalOrPlusZero_zero
  · have hrange := h.inNormalRange hne
    obtain ⟨hexp, hexp'⟩ := floatExp_rne32 h.1 hrange
    obtain ⟨hlow, hhigh⟩ := h.2 hne
    have habs : |(num : ℚ) / den| = ((num.natAbs : Int) : ℚ) / den := by rw [abs_fraction, Int.cast_natCast]
    have hmagnitude : Roundable (((num.natAbs : Int) : ℚ) / den) := by
      rw [← habs]
      exact .inr (by rwa [InNormalRange, abs_abs])
    rw [habs] at hlow hhigh
    refine ⟨bne_iff_ne.2 hexp', ?_, ?_, fun _ => ?_⟩
    · rw [floatSubnormal, beq_false_of_ne hexp, Bool.false_and]
    · intro hminus
      rw [hminus] at hexp
      exact hexp (by decide)
    · rw [abs_floatValue_rne32 h.1 hrange, ← rne32_least, ← rne32_greatest]
      exact ⟨floatValue_rne32_mono (by norm_num) h.1 decoderQuotient_least.roundable hmagnitude
          (by simpa using hlow),
        floatValue_rne32_mono h.1 (by norm_num) hmagnitude decoderQuotient_greatest.roundable
          (by simpa using hhigh)⟩

theorem finiteNormalOrPlusZero_posX (payload : PayloadWord) : FiniteNormalOrPlusZero (decodePos payload).posX :=
  (decoderQuotient_half (hiHalf payload)).finiteNormalOrPlusZero

theorem finiteNormalOrPlusZero_signedOffset (h : Half) : FiniteNormalOrPlusZero (rne32 (signedOffset h) 1000) :=
  (decoderQuotient_signedOffset h).finiteNormalOrPlusZero

/-! ## Ranges (R118) -/

theorem signedOffset_least (h : Half) : signedOffset 0x0000 ≤ signedOffset h := by
  have hval : BitVec.toNat (0x0000 : Half) = 0 := rfl
  rw [signedOffset, signedOffset, hval]
  omega

theorem signedOffset_greatest (h : Half) : signedOffset h ≤ signedOffset 0xFFFF := by
  have hlt := h.isLt
  have hval : BitVec.toNat (0xFFFF : Half) = 65535 := rfl
  rw [signedOffset, signedOffset, hval]
  omega

/-- Over one divisor, a greater numerator gives no smaller number. -/
theorem DecoderQuotient.floatValue_mono {num num' : Int} {den : Nat} (h : DecoderQuotient num den)
    (h' : DecoderQuotient num' den) (hle : num ≤ num') :
    floatValue (rne32 num den) ≤ floatValue (rne32 num' den) := by
  refine floatValue_rne32_mono h.1 h.1 h.roundable h'.roundable ?_
  gcongr

theorem floatValue_half_range (h : Half) :
    0 ≤ floatValue (rne32 h.toNat 100) ∧ floatValue (rne32 h.toNat 100) ≤ floatValue 0x4423D666 := by
  have hquotient := decoderQuotient_half h
  constructor
  · have hzero := (decoderQuotient_half 0).floatValue_mono hquotient (Int.natCast_nonneg _)
    rwa [show ((0 : Half).toNat : Int) = 0 from rfl, rne32_zero, floatValue_zero] at hzero
  · rw [← rne32_greatest]
    have hlt := h.isLt
    exact hquotient.floatValue_mono decoderQuotient_greatest (by omega)

theorem floatValue_signedOffset_range (h : Half) :
    floatValue 0xC2031168 ≤ floatValue (rne32 (signedOffset h) 1000) ∧
    floatValue (rne32 (signedOffset h) 1000) ≤ floatValue 0x4203126F := by
  have hquotient := decoderQuotient_signedOffset h
  rw [← rne32_signedOffset_0x0000, ← rne32_signedOffset_0xFFFF]
  exact ⟨(decoderQuotient_signedOffset 0x0000).floatValue_mono hquotient (signedOffset_least h),
    hquotient.floatValue_mono (decoderQuotient_signedOffset 0xFFFF) (signedOffset_greatest h)⟩

end Sys2Proof.Machine

namespace Sys2Proof.Proofs

open Sys2Proof Sys2Proof.Machine

/-- Settles O49: each output is +0 or the rounding of a decoder's quotient, which is 0 where its numerator is. -/
theorem floatOutputsAreFiniteNormalOrPlusZero : Obligations.FloatOutputsAreFiniteNormalOrPlusZero := by
  constructor
  · intro c p x hx
    simp only [List.mem_cons, List.not_mem_nil, or_false] at hx
    cases c with
    | pos =>
      rcases hx with rfl | rfl | rfl | rfl
      · exact finiteNormalOrPlusZero_posX p
      · exact finiteNormalOrPlusZero_signedOffset (loHalf p)
      · exact finiteNormalOrPlusZero_zero
      · exact finiteNormalOrPlusZero_zero
    | vel =>
      rcases hx with rfl | rfl | rfl | rfl
      · exact finiteNormalOrPlusZero_zero
      · exact finiteNormalOrPlusZero_zero
      · exact finiteNormalOrPlusZero_signedOffset (hiHalf p)
      · exact finiteNormalOrPlusZero_signedOffset (loHalf p)
  · intro p
    have hoffset (h : Half) : rne32 (signedOffset h) 1000 = 0 ↔ h = 32767 :=
      (decoderQuotient_signedOffset h).rne32_eq_zero_iff.trans (signedOffset_eq_zero_iff h)
    have hhalf : rne32 (hiHalf p).toNat 100 = 0 ↔ hiHalf p = 0 := by
      rw [(decoderQuotient_half _).rne32_eq_zero_iff, Int.natCast_eq_zero]
      exact BitVec.toNat_inj (y := 0)
    exact ⟨hhalf, hoffset (loHalf p), hoffset (hiHalf p), hoffset (loHalf p)⟩

/-- Settles O50: the ranges of the two kinds of quotient, whose ends are the corner values. -/
theorem floatOutputsStayInTheirRanges : Obligations.FloatOutputsStayInTheirRanges := by
  intro p
  obtain ⟨hposXLow, hposXHigh⟩ := floatValue_half_range (hiHalf p)
  obtain ⟨hloLow, hloHigh⟩ := floatValue_signedOffset_range (loHalf p)
  obtain ⟨hhiLow, hhiHigh⟩ := floatValue_signedOffset_range (hiHalf p)
  exact ⟨hposXLow, hposXHigh, hloLow, hloHigh, hhiLow, hhiHigh, hloLow, hloHigh⟩

end Sys2Proof.Proofs
end

section
/-! PROOF. The two other ways to R111's quotient that 44_payload.md R116 names: through the operands in binary32, which
are exact, and through binary64, whose rounding cannot cross a midpoint of the rounding to binary32. -/

namespace Sys2Proof.Machine

/-! ## Through binary32 -/

/-- An integer of at most 24 bits has an integer for its significand, which no rounding changes. -/
theorem floatValue_rne32_int {num : Int} (h : |num| < 2 ^ 24) : floatValue (rne32 num 1) = num := by
  by_cases hnum : num = 0
  · rw [hnum, rne32_zero, floatValue_zero, Int.cast_zero]
  have hfraction : (num : ℚ) / (1 : Nat) = num := by rw [Nat.cast_one, div_one]
  have hlow : (1 : ℚ) ≤ |(num : ℚ)| := by exact_mod_cast Int.one_le_abs hnum
  have hhigh : |(num : ℚ)| < 2 ^ 24 := by exact_mod_cast h
  have hrange : InNormalRange ((num : ℚ) / (1 : Nat)) := by
    rw [hfraction]
    refine ⟨le_trans ?_ hlow, hhigh.trans ?_⟩ <;> norm_num
  obtain ⟨m, e, hq, hm, he, he', hM, hM', hpack⟩ := hrange.exists_rounding
  have hexponent : e < 24 := by
    refine (zpow_lt_zpow_iff_right₀ (by norm_num : (1 : ℚ) < 2)).1 ?_
    calc (2 : ℚ) ^ e = 2 ^ (23 : Int) * 2 ^ (e - 23) := by rw [← zpow_add₀ (by norm_num), add_sub_cancel]
      _ ≤ m * 2 ^ (e - 23) := by gcongr; exact_mod_cast hm
      _ = |(num : ℚ)| := by rw [← hq, hfraction]
      _ < 2 ^ (24 : Int) := by exact_mod_cast hhigh
  obtain ⟨k, hk⟩ := Int.eq_ofNat_of_zero_le (show 0 ≤ 23 - e by omega)
  have hinteger : m = ((|num| * 2 ^ k : ℤ) : ℚ) := by
    have hscale : (2 : ℚ) ^ (e - 23) * 2 ^ k = 1 := by
      rw [← zpow_natCast, ← hk, ← zpow_add₀ (by norm_num), show e - 23 + (23 - e) = 0 by ring, zpow_zero]
    push_cast
    rw [← hfraction, hq, mul_assoc, hscale, mul_one]
  have hexact : (roundHalfEven m : ℚ) = m := by rw [hinteger, roundHalfEven_intCast]
  rw [hpack hnum one_pos rfl, floatValue_packRounded hM hM' he he', hexact, ← hq,
    ← fraction_eq_sign_mul_abs num one_pos, hfraction]

/-! ## Through binary64 -/

/-- The significand and the exponent that a rounding to `p` bits answers stand for the rounded significand at
`floorLog2`, whether or not it carries. -/
theorem roundSignificand_value (p n d : Nat) (hp : 0 < p) (hd : 0 < d) :
    ((roundSignificand p n d).1 : ℚ) * 2 ^ ((roundSignificand p n d).2 - (p - 1)) =
      roundHalfEven ((n : ℚ) / d * 2 ^ ((p : Int) - 1 - floorLog2 n d)) * 2 ^ (floorLog2 n d - (p - 1)) := by
  unfold roundSignificand
  generalize floorLog2 n d = e
  dsimp only
  have hround := roundQuotient_eq (n * 2 ^ ((p : Int) - 1 - e).toNat) (d * 2 ^ (-((p : Int) - 1 - e)).toNat)
    (by positivity) _ (scaled_eq n d _ hd).symm
  have hround' : roundHalfEven ((n : ℚ) / d * 2 ^ ((p : Int) - 1 - e)) =
      roundQuotient (n * 2 ^ ((p : Int) - 1 - e).toNat) (d * 2 ^ (-((p : Int) - 1 - e)).toNat) := hround.symm
  rw [hround']
  split
  case isTrue hcarry =>
    obtain ⟨k, rfl⟩ : ∃ k, p = k + 1 := ⟨p - 1, by omega⟩
    have hnext : e + 1 - (((k + 1 : Nat) : Int) - 1) = e - (((k + 1 : Nat) : Int) - 1) + 1 := by ring
    rw [hcarry, Nat.add_sub_cancel, hnext, zpow_add₀ (by norm_num)]
    push_cast
    ring
  case isFalse => norm_cast

/-- The binary64 quotient, as a number. -/
theorem quotient64_value (n d : Nat) (hd : 0 < d) :
    0 < (quotient64 n d).2 ∧
    ((quotient64 n d).1 : ℚ) / (quotient64 n d).2 =
      roundHalfEven ((n : ℚ) / d * 2 ^ (52 - floorLog2 n d)) * 2 ^ (floorLog2 n d - 52) := by
  unfold quotient64
  refine ⟨by positivity, ?_⟩
  have hvalue := roundSignificand_value 53 n d (by norm_num) hd
  have hscaled := scaled_eq (roundSignificand 53 n d).1 1 ((roundSignificand 53 n d).2 - 52) one_pos
  rw [one_mul] at hscaled
  rw [hscaled, Nat.cast_one, div_one]
  norm_num at hvalue
  exact hvalue

/-- A fraction with a denominator of at most 1000 that is not midway between two integers is at least 1/2000 from the
middle. -/
theorem error_le_of_lt_half {m : ℚ} {N M : ℤ} {d : Nat} (hd : 0 < d) (hd' : d ≤ 1000) (hm : m * d = N)
    (h : |(M : ℚ) - m| < 1 / 2) : |(M : ℚ) - m| ≤ 1 / 2 - 1 / 2000 := by
  have hdq : (0 : ℚ) < d := by exact_mod_cast hd
  have hdq' : (d : ℚ) ≤ 1000 := by exact_mod_cast hd'
  have herror : |2 * (M * d - N : ℚ)| = 2 * d * |M - m| := by
    rw [← hm, ← sub_mul, abs_mul, abs_mul, abs_of_pos hdq, abs_two]
    ring
  have hlt : |2 * (M * d - N)| < (d : ℤ) := by
    have : |2 * (M * d - N : ℚ)| < d := by
      rw [herror]
      nlinarith
    exact_mod_cast this
  have hle : |2 * (M * d - N : ℚ)| ≤ d - 1 := by exact_mod_cast Int.le_sub_one_of_lt hlt
  rw [herror] at hle
  nlinarith

/-- Rounding first at 29 bits below the integer changes no rounding of a fraction with a denominator of at most 1000:
its error is less than what keeps the fraction from a midpoint, and a midpoint it leaves alone. -/
theorem roundHalfEven_twice {m : ℚ} {N : ℤ} {d : Nat} (hd : 0 < d) (hd' : d ≤ 1000) (hm : m * d = N) :
    roundHalfEven (roundHalfEven (m * 2 ^ 29) / 2 ^ 29) = roundHalfEven m := by
  have hnear := (abs_roundHalfEven_sub m).1
  rcases hnear.lt_or_eq with hinside | hmidpoint
  · have hfar := error_le_of_lt_half hd hd' hm hinside
    have hfirst : |m - roundHalfEven (m * 2 ^ 29) / 2 ^ 29| ≤ 1 / 2 ^ 30 := by
      have herror := (abs_roundHalfEven_sub (m * 2 ^ 29)).1
      rw [abs_le] at herror ⊢
      constructor <;> linarith
    refine roundHalfEven_eq_of_near ?_
    calc |(roundHalfEven m : ℚ) - roundHalfEven (m * 2 ^ 29) / 2 ^ 29|
        ≤ |(roundHalfEven m : ℚ) - m| + |m - roundHalfEven (m * 2 ^ 29) / 2 ^ 29| := abs_sub_le _ _ _
      _ < 1 / 2 := by linarith
  · have hinteger : ∃ k : ℤ, m * 2 ^ 29 = k := by
      rcases (abs_eq (by norm_num)).1 hmidpoint with hbelow | habove
      · exact ⟨(2 * roundHalfEven m - 1) * 2 ^ 28, by push_cast; linarith⟩
      · exact ⟨(2 * roundHalfEven m + 1) * 2 ^ 28, by push_cast; linarith⟩
    obtain ⟨k, hk⟩ := hinteger
    rw [hk, roundHalfEven_intCast, ← hk, mul_div_cancel_right₀ m (by norm_num)]

/-- A sign put before a magnitude. -/
theorem abs_signed_fraction (s : Bool) (n d : Nat) :
    |((if s then -(n : Int) else n : Int) : ℚ) / d| = (n : ℚ) / d := by
  cases s <;> simp [abs_div]

/-- The binary64 quotient stays between the powers of two that the quotient lies between, and it rounds to the same
significand of 24 bits. -/
theorem quotient64_rounds_alike {n d : Nat} (hn : 0 < n) (hd : 0 < d) (hd' : d ≤ 1000) (he : floorLog2 n d ≤ 23) :
    (2 : ℚ) ^ floorLog2 n d ≤ ((quotient64 n d).1 : ℚ) / (quotient64 n d).2 ∧
    ((quotient64 n d).1 : ℚ) / (quotient64 n d).2 ≤ 2 ^ (floorLog2 n d + 1) ∧
    roundHalfEven (((quotient64 n d).1 : ℚ) / (quotient64 n d).2 * 2 ^ (23 - floorLog2 n d)) =
      roundHalfEven ((n : ℚ) / d * 2 ^ (23 - floorLog2 n d)) := by
  obtain ⟨hlow, hhigh⟩ := significand_bounds n d hn hd
  rw [(quotient64_value n d hd).2]
  generalize floorLog2 n d = e at *
  have hscale (j k : Int) : (2 : ℚ) ^ j * 2 ^ k = 2 ^ (j + k) := (zpow_add₀ (by norm_num) _ _).symm
  have hfiner : (n : ℚ) / d * 2 ^ (52 - e) = (n : ℚ) / d * 2 ^ (23 - e) * 2 ^ 29 := by
    rw [mul_assoc, ← zpow_natCast, hscale]
    congr 2
    push_cast
    ring
  have hinteger : (n : ℚ) / d * 2 ^ (23 - e) * d = ((n * 2 ^ (23 - e).toNat : ℤ) : ℚ) := by
    have hdq : (d : ℚ) ≠ 0 := by exact_mod_cast hd.ne'
    have hnat : (2 : ℚ) ^ (23 - e) = 2 ^ (23 - e).toNat := by rw [← zpow_natCast, Int.toNat_of_nonneg (by omega)]
    rw [hnat]
    push_cast
    field_simp
  have htwice := roundHalfEven_twice hd hd' hinteger
  rw [hfiner]
  generalize (n : ℚ) / d * 2 ^ (23 - e) = m at *
  have hR : 2 ^ 52 ≤ roundHalfEven (m * 2 ^ 29) := le_roundHalfEven (by push_cast; linarith)
  have hR' : roundHalfEven (m * 2 ^ 29) ≤ 2 ^ 53 := roundHalfEven_le (by push_cast; linarith)
  generalize roundHalfEven (m * 2 ^ 29) = R at *
  refine ⟨?_, ?_, ?_⟩
  · calc (2 : ℚ) ^ e = 2 ^ (52 : Int) * 2 ^ (e - 52) := by rw [hscale, add_sub_cancel]
      _ ≤ R * 2 ^ (e - 52) := by gcongr; exact_mod_cast hR
  · calc R * (2 : ℚ) ^ (e - 52) ≤ 2 ^ (53 : Int) * 2 ^ (e - 52) := by gcongr; exact_mod_cast hR'
      _ = 2 ^ (e + 1) := by rw [hscale]; congr 1; ring
  · rw [← htwice, mul_assoc, hscale, show e - 52 + (23 - e) = -29 by ring, div_eq_mul_inv, zpow_neg]
    norm_cast

/-- R116's first path, for a divisor of at most 1000 and a quotient below `2^23`. -/
theorem divideThrough64_eq {num : Int} {den : Nat} (hden : 0 < den) (hden' : den ≤ 1000)
    (h : |(num : ℚ) / den| < 2 ^ 23) : divideThrough64 num den = rne32 num den := by
  by_cases hnum : num = 0
  · rw [divideThrough64, if_pos hnum, hnum, rne32_zero]
  have hpos : 0 < num.natAbs := Int.natAbs_pos.2 hnum
  obtain ⟨hlow, hhigh⟩ := floorLog2_spec num.natAbs den hpos hden
  rw [abs_fraction] at h
  have hexponent : floorLog2 num.natAbs den ≤ 23 :=
    ((zpow_lt_zpow_iff_right₀ (by norm_num : (1 : ℚ) < 2)).1 (hlow.trans_lt (by exact_mod_cast h))).le
  obtain ⟨hqlow, hqhigh, hround⟩ := quotient64_rounds_alike hpos hden hden' hexponent
  have hq2 := (quotient64_value num.natAbs den hden).1
  rw [divideThrough64, if_neg hnum, rne32_eq_packRounded hnum hden (abs_fraction num den ▸ hlow)
    (abs_fraction num den ▸ hhigh.le), abs_fraction, ← hround]
  dsimp only
  generalize quotient64 num.natAbs den = q at *
  generalize floorLog2 num.natAbs den = e at *
  have hmagnitude : |((if num < 0 then -(q.1 : Int) else q.1 : Int) : ℚ) / q.2| = (q.1 : ℚ) / q.2 := by
    simpa using abs_signed_fraction (decide (num < 0)) q.1 q.2
  have hq1 : 0 < q.1 := by
    have hquotient : (0 : ℚ) < (q.1 : ℚ) / q.2 := lt_of_lt_of_le (by positivity) hqlow
    rw [div_pos_iff_of_pos_right (by exact_mod_cast hq2)] at hquotient
    exact_mod_cast hquotient
  have hsign : (if num < 0 then -(q.1 : Int) else q.1) < 0 ↔ num < 0 := by split <;> omega
  have hne : (if num < 0 then -(q.1 : Int) else q.1) ≠ 0 := by split <;> omega
  rw [rne32_eq_packRounded hne hq2 (hmagnitude ▸ hqlow) (hmagnitude ▸ hqhigh), hmagnitude, decide_eq_decide.2 hsign]

/-- A quotient of the decoder is small enough for R116's first path. -/
theorem DecoderQuotient.divideThrough64_eq {num : Int} {den : Nat} (h : DecoderQuotient num den) (hden : den ≤ 1000) :
    divideThrough64 num den = rne32 num den := by
  refine Machine.divideThrough64_eq h.1 hden ?_
  by_cases hnum : num = 0
  · rw [hnum, Int.cast_zero, zero_div, abs_zero]
    positivity
  · obtain ⟨-, hhigh⟩ := h.2 hnum
    refine hhigh.trans_lt ?_
    norm_num

end Sys2Proof.Machine

namespace Sys2Proof.Proofs

open Sys2Proof Sys2Proof.Machine

/-- Settles O51: both divisions of a half are quotients of the decoder. -/
theorem divisionThroughBinary64Agrees : Obligations.DivisionThroughBinary64Agrees := fun h =>
  ⟨(decoderQuotient_half h).divideThrough64_eq (by norm_num),
    (decoderQuotient_signedOffset h).divideThrough64_eq le_rfl⟩

/-- Settles O52: both operands are exact, so their quotient is the rational that R111 rounds. -/
theorem divisionInBinary32Agrees : Obligations.DivisionInBinary32Agrees := by
  intro num den hnum hden hden'
  have hnumExact : floatValue (rne32 num 1) = num := floatValue_rne32_int hnum
  have hdenExact : floatValue (rne32 den 1) = ((den : Int) : ℚ) :=
    floatValue_rne32_int (by rw [Nat.abs_cast]; exact_mod_cast hden')
  rw [Int.cast_natCast] at hdenExact
  refine ⟨hnumExact, hdenExact, fun q hq => ?_⟩
  rw [hnumExact, hdenExact] at hq
  exact rne32_congr q.den_pos hden ((Rat.num_div_den q).trans hq)

end Sys2Proof.Proofs
end
